-- ==== Sys2Proof/Word.lean ====
section
/-! DEFINITION. The datapath widths of `lookup_table_decoder` (00_scope.md R7) and their plainest arithmetic
(R11): every value is unsigned, bit 0 is the least significant. -/

namespace Sys2Proof

/-- A symbol, or an output byte: 8 bits (R7). -/
abbrev Byte := BitVec 8

/-- A decoded symbol value: 2 bits, one of 0, 1, 2, 3 (R7). -/
abbrev UInt2 := BitVec 2

/-- A channel response descriptor, `RDRSP` or `WRRSP`: 4 bits, `e` at bit 3, `n` at bits 2..0 (R47). -/
abbrev Descriptor := BitVec 4

/-- `zext_8(v)` of R11. -/
def zext8 (v : UInt2) : Byte := v.setWidth 8

end Sys2Proof
end

