-- ==== Sys2Proof/Config.lean ====
section
/-! DEFINITION. What an implementation fixes (the build-time parameters `ALPHABET` and `FAIL_EXIT`, 00_scope.md R9 and
R10) and the free values the spec leaves open (60_exceptions.md R99, R100). -/

namespace Sys2Proof

/-- The four error causes of 60_exceptions.md R94. The register `cause` holds one of them or `None`. -/
inductive Cause where
  | invalidSymbol
  | truncatedInput
  | readFault
  | writeFault
  deriving DecidableEq, Repr

/-- The parameter `ALPHABET : Fin 4 -> Byte` (R9), as its four bytes: the symbols of value 0, 1, 2, 3
(the letters A, B, C, D of 30_encoding.md R58). -/
structure Alphabet where
  a : Byte
  b : Byte
  c : Byte
  d : Byte
  deriving DecidableEq, Repr

/-- `ALPHABET(v)`. -/
def Alphabet.sym (al : Alphabet) (v : UInt2) : Byte :=
  if v = 0 then al.a else if v = 1 then al.b else if v = 2 then al.c else al.d

/-- The set `LEGAL` (R9), as a list. -/
def Alphabet.legal (al : Alphabet) : List Byte := [al.a, al.b, al.c, al.d]

/-- `ALPHABET` must be injective (R9): the four bytes differ. -/
def Alphabet.wf (al : Alphabet) : Bool :=
  al.a != al.b && al.a != al.c && al.a != al.d && al.b != al.c && al.b != al.d && al.c != al.d

/-- The parameter `FAIL_EXIT` (R10): one exit status for each cause. -/
structure FailExit where
  invalidSymbol  : Nat
  truncatedInput : Nat
  readFault      : Nat
  writeFault     : Nat
  deriving DecidableEq, Repr

/-- `FAIL_EXIT(c)`. -/
def FailExit.of (f : FailExit) : Cause → Nat
  | .invalidSymbol  => f.invalidSymbol
  | .truncatedInput => f.truncatedInput
  | .readFault      => f.readFault
  | .writeFault     => f.writeFault

/-- Every value of `FAIL_EXIT` is nonzero (R10). -/
def FailExit.wf (f : FailExit) : Bool :=
  f.invalidSymbol != 0 && f.truncatedInput != 0 && f.readFault != 0 && f.writeFault != 0

/-- The build-time parameters of one block. They are configuration, not state (10_state.md): the machine carries
them beside its state so that every claim is about EVERY alphabet, and no step writes them (R112a). Log entry 2. -/
structure Params where
  alphabet : Alphabet
  failExit : FailExit
  deriving DecidableEq, Repr

/-- The parameters an implementation may have: an injective alphabet, nonzero exit values. -/
def Params.wf (p : Params) : Bool := p.alphabet.wf && p.failExit.wf

/-- OPEN (R9, 92_eei_decisions.md D3): no source gives the four byte values. A permutation of the bytes with no body;
its values at 0, 1, 2, 3 are the alphabet, so the alphabet is injective and otherwise unknown. Log entry 2. -/
opaque Config.symbolOrder : Equiv.Perm (BitVec 8)

/-- OPEN (R10, D6): one less than `FAIL_EXIT(c)`, so that only `FAIL_EXIT(c) != 0` is known. Log entry 2. -/
opaque Config.failExitLessOne : Cause → Nat

/-- The alphabet an order of the bytes gives. -/
def Alphabet.ofOrder (σ : Equiv.Perm (BitVec 8)) : Alphabet := ⟨σ 0, σ 1, σ 2, σ 3⟩

/-- The exit values a choice of predecessors gives. -/
def FailExit.ofLessOne (f : Cause → Nat) : FailExit :=
  ⟨f .invalidSymbol + 1, f .truncatedInput + 1, f .readFault + 1, f .writeFault + 1⟩

/-- The parameters of the block as built. -/
def Config.params : Params :=
  ⟨.ofOrder Config.symbolOrder, .ofLessOne Config.failExitLessOne⟩

/-- FREE VALUE (R100, D9, I4): the text of the n-th draw's diagnostic message, any string. Log entry 5. -/
opaque Config.diagnosticText : Nat → String

/-- FREE VALUE (R99, D13, I5): the exit status after an external termination, any number. Log entry 6. -/
opaque Config.abortExit : Nat → Nat

/-- FREE VALUE (R99, D13, I6): whether the host had taken the byte of a write request that was waiting when the
termination came. Log entry 6. -/
opaque Config.abortTookByte : Nat → Bool

end Sys2Proof
end

