-- ==== Sys2Proof/Syntax.lean ====
section
/-! DEFINITION. The 17 operations of spec/opcode_table.json, one constructor each, and the words they stand as
on the block's channels (30_encoding.md R47). -/

namespace Sys2Proof

/-- A group: four symbols in arrival order, `s0` first (R49). -/
structure Group where
  s0 : Byte
  s1 : Byte
  s2 : Byte
  s3 : Byte
  deriving DecidableEq, Repr

/-- The bytes of a group in arrival order. -/
def Group.bytes (g : Group) : List Byte := [g.s0, g.s1, g.s2, g.s3]

/-- The operations. A `sym…` operation decodes one symbol of the group in hand; `decodeGroup` decodes the whole group;
`rd…` and `wr…` are the host's responses to the block's requests; `abort` is the host's termination signal. -/
inductive Instr where
  /-- `SYM_V0` (40_codec.md R62). -/
  | symV0 (sym : Byte)
  /-- `SYM_V1` (R63). -/
  | symV1 (sym : Byte)
  /-- `SYM_V2` (R64). -/
  | symV2 (sym : Byte)
  /-- `SYM_V3` (R65). -/
  | symV3 (sym : Byte)
  /-- `SYM_INVALID` (R66). -/
  | symInvalid (sym : Byte)
  /-- `DECODE_GROUP` (41_group_decoder.md R68). -/
  | decodeGroup (s0 s1 s2 s3 : Byte)
  /-- `RD_FULL`: `Data(4, [b0,b1,b2,b3])` (42_stream_loop.md R77). -/
  | rdFull (b0 b1 b2 b3 : Byte)
  /-- `RD_SHORT1`: `Data(1, [b0])` (R78). -/
  | rdShort1 (b0 : Byte)
  /-- `RD_SHORT2`: `Data(2, [b0,b1])` (R78). -/
  | rdShort2 (b0 b1 : Byte)
  /-- `RD_SHORT3`: `Data(3, [b0,b1,b2])` (R78). -/
  | rdShort3 (b0 b1 b2 : Byte)
  /-- `RD_EOF`: `Data(0, [])` (R86). -/
  | rdEof
  /-- `RD_ERR`: `ReadErr` (R81). -/
  | rdErr
  /-- `WR_OK`: `Wrote(1)` (R83). -/
  | wrOk
  /-- `WR_ZERO`: `Wrote(0)` (R84). -/
  | wrZero
  /-- `WR_OVER`: `Wrote(n)`, `n` in 2..7, saturated to 7 (R84, R55). -/
  | wrOver (n : BitVec 3)
  /-- `WR_ERR`: `WriteErr` (R85). -/
  | wrErr
  /-- `ABORT`: the host's termination signal (60_exceptions.md R99). -/
  | abort
  deriving DecidableEq, Repr

/-- A word of one of the block's formats (R47): a `SYM8` symbol; a `GRP32` group in the packing of R49; an `RDRSP`
descriptor with the bytes the response delivers (R34, R54); a `WRRSP` descriptor (R55); the termination signal, which
has no bits. The same descriptor bits mean different operations in `RDRSP` and `WRRSP`, so a word carries its format:
on the block, the channel it stands on. Log entry 8. -/
inductive Code where
  | sym8 (sym : Byte)
  | grp32 (w : BitVec 32)
  | rdrsp (desc : Descriptor) (data : List Byte)
  | wrrsp (desc : Descriptor)
  | signal
  deriving DecidableEq, Repr

/-- Why a word is no operation: the reasons the decoder rejects by. -/
inductive DecodeError where
  /-- An `RDRSP` descriptor `0101` to `0111` or `1001` to `1111`: outside the host's contract (R54, D10). -/
  | readDescriptor (desc : Descriptor)
  /-- An `RDRSP` descriptor whose count is not the number of bytes delivered: no response of R34. -/
  | readCount (desc : Descriptor) (delivered : Nat)
  /-- A `WRRSP` descriptor `1001` to `1111` (R55, D11). -/
  | writeDescriptor (desc : Descriptor)
  deriving DecidableEq, Repr

end Sys2Proof
end

