-- ==== Sys2Proof/WellFormed.lean ====
section
/-! DEFINITION. Which terms of `Instr` stand for an operation of the table, under a given alphabet. -/

namespace Sys2Proof

/-- A symbol operation carries the byte its row matches (40_codec.md R62 to R66); `WR_OVER` carries a count of 2 to 7
(30_encoding.md R55). The other operations admit every operand. -/
def Instr.wf (al : Alphabet) : Instr → Bool
  | .symV0 sym         => sym == al.a
  | .symV1 sym         => sym == al.b
  | .symV2 sym         => sym == al.c
  | .symV3 sym         => sym == al.d
  | .symInvalid sym    => !al.legal.contains sym
  | .decodeGroup _ _ _ _ => true
  | .rdFull _ _ _ _    => true
  | .rdShort1 _        => true
  | .rdShort2 _ _      => true
  | .rdShort3 _ _ _    => true
  | .rdEof             => true
  | .rdErr             => true
  | .wrOk              => true
  | .wrZero            => true
  | .wrOver n          => 2 ≤ n.toNat
  | .wrErr             => true
  | .abort             => true

end Sys2Proof
end

