-- ==== Sys2Proof/Decode.lean ====
section
/-! DEFINITION. From words to operations (30_encoding.md R48 to R55), total and rejecting by name; and back. -/

namespace Sys2Proof

/-- The `GRP32` packing of R49: `W[31:24] = s0` … `W[7:0] = s3`. -/
def Group.pack (g : Group) : BitVec 32 := g.s0 ++ g.s1 ++ g.s2 ++ g.s3

/-- The group a `GRP32` word holds (R49). -/
def Group.unpack (w : BitVec 32) : Group :=
  ⟨w.extractLsb' 24 8, w.extractLsb' 16 8, w.extractLsb' 8 8, w.extractLsb' 0 8⟩

/-- The symbol decode map (R52, R53), total by R60. -/
def decodeSym (al : Alphabet) (sym : Byte) : Instr :=
  if sym = al.a then .symV0 sym
  else if sym = al.b then .symV1 sym
  else if sym = al.c then .symV2 sym
  else if sym = al.d then .symV3 sym
  else .symInvalid sym

/-- `RDRSP` (R54): the descriptor says how many bytes the response delivers. -/
def decodeRead (desc : Descriptor) (data : List Byte) : Except DecodeError Instr :=
  if desc = 0b0100#4 then
    match data with
    | [b0, b1, b2, b3] => .ok (.rdFull b0 b1 b2 b3)
    | _ => .error (.readCount desc data.length)
  else if desc = 0b0001#4 then
    match data with
    | [b0] => .ok (.rdShort1 b0)
    | _ => .error (.readCount desc data.length)
  else if desc = 0b0010#4 then
    match data with
    | [b0, b1] => .ok (.rdShort2 b0 b1)
    | _ => .error (.readCount desc data.length)
  else if desc = 0b0011#4 then
    match data with
    | [b0, b1, b2] => .ok (.rdShort3 b0 b1 b2)
    | _ => .error (.readCount desc data.length)
  else if desc = 0b0000#4 then
    match data with
    | [] => .ok .rdEof
    | _ => .error (.readCount desc data.length)
  else if desc = 0b1000#4 then
    match data with
    | [] => .ok .rdErr
    | _ => .error (.readCount desc data.length)
  else .error (.readDescriptor desc)

/-- `WRRSP` (R55): `e = 0` is `Wrote(n)`, `e = 1` with `n = 0` is `WriteErr`. -/
def decodeWrite (desc : Descriptor) : Except DecodeError Instr :=
  if desc = 0b0001#4 then .ok .wrOk
  else if desc = 0b0000#4 then .ok .wrZero
  else if desc.extractLsb' 3 1 = 0#1 then .ok (.wrOver (desc.extractLsb' 0 3))
  else if desc = 0b1000#4 then .ok .wrErr
  else .error (.writeDescriptor desc)

/-- The decoder. -/
def decode (al : Alphabet) : Code → Except DecodeError Instr
  | .sym8 sym => .ok (decodeSym al sym)
  | .grp32 w =>
    let g := Group.unpack w
    .ok (.decodeGroup g.s0 g.s1 g.s2 g.s3)
  | .rdrsp desc data => decodeRead desc data
  | .wrrsp desc => decodeWrite desc
  | .signal => .ok .abort

/-- The encoder: the word of a well-formed operation. -/
def encode : Instr → Code
  | .symV0 sym      => .sym8 sym
  | .symV1 sym      => .sym8 sym
  | .symV2 sym      => .sym8 sym
  | .symV3 sym      => .sym8 sym
  | .symInvalid sym => .sym8 sym
  | .decodeGroup s0 s1 s2 s3 => .grp32 (Group.pack ⟨s0, s1, s2, s3⟩)
  | .rdFull b0 b1 b2 b3 => .rdrsp 0b0100#4 [b0, b1, b2, b3]
  | .rdShort1 b0    => .rdrsp 0b0001#4 [b0]
  | .rdShort2 b0 b1 => .rdrsp 0b0010#4 [b0, b1]
  | .rdShort3 b0 b1 b2 => .rdrsp 0b0011#4 [b0, b1, b2]
  | .rdEof          => .rdrsp 0b0000#4 []
  | .rdErr          => .rdrsp 0b1000#4 []
  | .wrOk           => .wrrsp 0b0001#4
  | .wrZero         => .wrrsp 0b0000#4
  | .wrOver n       => .wrrsp (0#1 ++ n)
  | .wrErr          => .wrrsp 0b1000#4
  | .abort          => .signal

/-- The number of bytes an `RDRSP` descriptor inside the host's contract delivers (R54); `none` outside it. -/
def readCount (desc : Descriptor) : Option Nat :=
  if desc.toNat ≤ 4 then some desc.toNat
  else if desc = 0b1000#4 then some 0
  else none

/-- The word that `nbits` bits of the opcode table name (log entry 8). 32 bits are a `GRP32` group. 8 bits of 16 or
more are a symbol. A 4-bit descriptor, alone or in a whole byte, is an `RDRSP` word where `RDRSP` has it (the format
the block reads first after reset; the bytes it delivers, which have no bits in the table, are zero) and a `WRRSP`
word otherwise. -/
def codeOfTableWord (nbits w : Nat) : Option Code :=
  if 2 ^ nbits ≤ w then none
  else if nbits = 32 then some (.grp32 (BitVec.ofNat 32 w))
  else if nbits = 4 ∨ nbits = 8 then
    if 16 ≤ w then some (.sym8 (BitVec.ofNat 8 w))
    else
      match readCount (BitVec.ofNat 4 w) with
      | some n => some (.rdrsp (BitVec.ofNat 4 w) (List.replicate n 0))
      | none => some (.wrrsp (BitVec.ofNat 4 w))
  else none

/-- The operation of a table word, under the alphabet of the block as built. -/
def decodeTableWord (nbits w : Nat) : Option Instr :=
  match codeOfTableWord nbits w with
  | none => none
  | some c => (decode Config.params.alphabet c).toOption

end Sys2Proof
end

