-- ==== Sys2Proof/Machine/State.lean ====
section
/-! DEFINITION. The machine's state as plain data (10_state.md R15 to R28), the reasons a step can stop, and the state
after reset (R27). The block has no addressable memory (20_memory.md R32), so there is no memory here. -/

namespace Sys2Proof.Machine

/-- The state of the stream controller (R16). -/
inductive Phase where
  | reading
  | decoding
  | writing
  | done
  | failed
  | aborted
  deriving DecidableEq, Repr

/-- The group buffer `grp[0..3]` (R18). An entry that nothing has written holds `none` (R13, R27). -/
structure GroupBuffer where
  e0 : Option Byte
  e1 : Option Byte
  e2 : Option Byte
  e3 : Option Byte
  deriving DecidableEq, Repr

/-- An `IN` read response as the channel history records it (20_memory.md R34). -/
inductive ReadResponse where
  /-- `Data(n, bytes)`, `n` the number of bytes. -/
  | data (bytes : List Byte)
  | readErr
  deriving DecidableEq, Repr

/-- What became of an `OUT` write request (R35). -/
inductive WriteResponse where
  /-- `Wrote(n)`; `n` is as the descriptor gives it, saturated to 7 (30_encoding.md R55). -/
  | wrote (n : Nat)
  | writeErr
  /-- No response: the block was terminated while the request waited. `taken` says whether the host had taken the byte
  (60_exceptions.md R99). -/
  | unanswered (taken : Bool)
  deriving DecidableEq, Repr

/-- A channel event (10_state.md R26). -/
inductive Event where
  /-- One read request, for 4 bytes, and its response. -/
  | read (r : ReadResponse)
  /-- One write request, its byte, and its response. -/
  | write (b : Byte) (r : WriteResponse)
  /-- One diagnostic event on `ERR`: its cause and its text (60_exceptions.md R100). -/
  | diagnostic (c : Cause) (text : String)
  /-- The terminal status on `STATUS` (20_memory.md R36). -/
  | status (phase : Phase) (cause : Option Cause) (exit : Option Nat)
  deriving DecidableEq, Repr

/-- One action of the host, a line of its script (30_encoding.md R57), as the channel carries it. -/
inductive HostInput where
  /-- A response on `IN`: its `RDRSP` descriptor and the bytes it delivers. -/
  | read (desc : Descriptor) (data : List Byte)
  /-- A response on `OUT`: its `WRRSP` descriptor. -/
  | write (desc : Descriptor)
  /-- The termination signal (60_exceptions.md R99). If it is the next action while a group is being decoded,
  `beforeDecode` says whether it comes before the decode or after it, while the write request waits: the spec admits
  both, so the host's script says which. Log entry 7. -/
  | abort (beforeDecode : Bool)
  deriving DecidableEq, Repr

/-- The machine's state. The first seven fields are the hardware's (R15 to R25). `history` is the observation state of
R26. `inbox`, `params` and `draws` are the model's own. -/
structure State where
  /-- The sequencing state (R16). -/
  phase   : Phase
  /-- The group in hand (R18). -/
  grp     : GroupBuffer
  /-- The decode accumulator (R19). It holds a value only while a group is decoded symbol by symbol. -/
  acc     : Option Byte
  /-- The position of the symbol being decoded, hidden state of R25. -/
  pos     : Option (Fin 4)
  /-- The decoded byte waiting to be written (R20). -/
  obuf    : Option Byte
  /-- Why the block failed; `none` is the spec's `None` (R21). -/
  cause   : Option Cause
  /-- The terminal status (R22). -/
  exit    : Option Nat
  /-- The channel events so far, oldest first (R26). -/
  history : List Event
  /-- The host's actions still to come, in order (R57). The block reads none before it has asked. Log entry 3. -/
  inbox   : List HostInput
  /-- The build-time parameters; no step writes them (R112a). Log entry 2. -/
  params  : Params
  /-- How many free values have been drawn. Log entry 4. -/
  draws   : Nat
  deriving DecidableEq, Repr

/-- The elements that are read and may hold no value (R13). The accumulator is none of them: what reads it has set it,
since a decode starts by setting it to zero (R27). -/
inductive Element where
  | grp
  | obuf
  deriving DecidableEq, Repr

/-- Why there is no next state although nothing is wrong with the input: `none` of 42_stream_loop.md R90, or R13. -/
inductive Fault where
  /-- Raised by `step` in `Reading` or `Writing` when the request has no response: the block waits, it has no step
  (R89, I7). A stuck state, and not the end of the run. Safe: where the block only waits, nothing is claimed. -/
  | waitingForHost
  /-- Raised by `step` and by every meaning in `Done`, `Failed` and `Aborted`: there is no step (R88). Safe. -/
  | terminalPhase
  /-- Raised by a meaning, or by `step` fetching the group, that reads an element nothing has written (R13, I10).
  Safe; no run from reset meets it. -/
  | readUnwritten (e : Element)
  deriving DecidableEq, Repr

/-- Why the model gives an input no meaning. -/
inductive Refusal where
  /-- An instruction with no meaning yet. No arm of `exec` uses it. -/
  | notModelled (mnemonic : String)
  /-- Raised by `step` for a word the decoder rejects: a response outside the host's contract (30_encoding.md R54, R55;
  D10, D11). Safe. -/
  | outsideContract (e : DecodeError)
  /-- Raised by every meaning in a phase that does not wait for that input: a response of the wrong class (R57, R90 last
  row, D18). Safe. -/
  | notRequested (phase : Phase)
  deriving DecidableEq, Repr

/-- The outcome of a step of this machine. -/
abbrev Result := Host.Outcome State Fault Refusal

/-- The state at the start of an invocation (R27, 70_reset_and_hazards.md R111), under the given parameters, before a
host that will act as `inbox` says. -/
def State.start (p : Params) (inbox : List HostInput) : State where
  phase   := .reading
  grp     := ⟨none, none, none, none⟩
  acc     := none
  pos     := none
  obuf    := none
  cause   := none
  exit    := none
  history := []
  inbox   := inbox
  params  := p
  draws   := 0

/-- The state after reset: the block as built, and a host that has not acted yet. -/
def State.reset : State := .start Config.params []

end Sys2Proof.Machine
end

