-- ==== Sys2Proof/Machine/Flags.lean ====
section
/-! DEFINITION. The block has no flags (10_state.md R24). What it shows of its state instead: the numeric codes of
`phase` and `cause` (R16, R21), the `STATUS` output and the pending request (20_memory.md R34 to R36), and the two
quantities derived from the channel history (R26). -/

namespace Sys2Proof.Machine

/-- The code of `phase`, 3 bits (R16). -/
def Phase.code : Phase → BitVec 3
  | .reading  => 0
  | .decoding => 1
  | .writing  => 2
  | .done     => 3
  | .failed   => 4
  | .aborted  => 5

/-- The code of `cause`, 3 bits; `None` is 0 (R21, 60_exceptions.md R94). -/
def causeCode : Option Cause → BitVec 3
  | none                 => 0
  | some .invalidSymbol  => 1
  | some .truncatedInput => 2
  | some .readFault      => 3
  | some .writeFault     => 4

/-- `Done`, `Failed` and `Aborted` are terminal (R17, 42_stream_loop.md R88). -/
def Phase.terminal : Phase → Bool
  | .reading | .decoding | .writing => false
  | .done | .failed | .aborted => true

/-- A request the block has issued and that has no response yet. -/
inductive Request where
  /-- `InRead(n)`: n bytes asked for on `IN`. -/
  | inRead (n : Nat)
  /-- `OutWrite(b)`: one byte on `OUT`. -/
  | outWrite (b : Byte)
  deriving DecidableEq, Repr

/-- The request the block waits on: `InRead(4)` in `Reading` (R34, R77), `OutWrite(obuf)` in `Writing` (R35, R82),
none elsewhere (R88). Issuing it changes no state (R82). DESIGN CHOICE: none in `Writing` with no value in `obuf` (no reachable
state, R29b). Log entry 17. -/
def State.request (s : State) : Option Request :=
  match s.phase with
  | .reading => some (.inRead 4)
  | .writing => s.obuf.map .outWrite
  | .decoding | .done | .failed | .aborted => none

/-- The `STATUS` output: the current `phase`, `cause` and `exit` (R36). -/
def State.status (s : State) : Phase × Option Cause × Option Nat := (s.phase, s.cause, s.exit)

/-- The bytes a read response delivers. -/
def ReadResponse.bytes : ReadResponse → List Byte
  | .data bytes => bytes
  | .readErr    => []

/-- Whether the host took the byte of a write request: `Wrote(1)` (R35), or taken before a termination (R99). -/
def WriteResponse.took : WriteResponse → Bool
  | .wrote n         => n = 1
  | .writeErr        => false
  | .unanswered took => took

/-- How many input bytes an event consumed. -/
def Event.consumed : Event → Nat
  | .read r         => r.bytes.length
  | .write _ _      => 0
  | .diagnostic _ _ => 0
  | .status _ _ _   => 0

/-- The output byte an event added, if any. -/
def Event.output : Event → List Byte
  | .read _         => []
  | .write b r      => if r.took then [b] else []
  | .diagnostic _ _ => []
  | .status _ _ _   => []

/-- `IN_CONSUMED` (R26). -/
def inConsumed (h : List Event) : Nat := (h.map Event.consumed).sum

/-- `OUT` (R26). -/
def output (h : List Event) : List Byte := h.flatMap Event.output

/-- How many diagnostic events a history holds (R36, R100). -/
def diagnostics (h : List Event) : Nat :=
  h.countP (fun e => match e with | .diagnostic _ _ => true | _ => false)

end Sys2Proof.Machine
end

