-- ==== Sys2Proof/Machine/Operands.lean ====
section
/-! DEFINITION. The codec, the assembly of the output byte, and the group decoder (30_encoding.md R50, R51;
40_codec.md R61; 41_group_decoder.md R68): pure functions of their bytes and the alphabet. -/

namespace Sys2Proof.Machine

/-- `Codec(s)` (R61). -/
def codec (al : Alphabet) (s : Byte) : Except Cause UInt2 :=
  if s = al.a then .ok 0
  else if s = al.b then .ok 1
  else if s = al.c then .ok 2
  else if s = al.d then .ok 3
  else .error .invalidSymbol

/-- `contribution_i = zext_8(v) << (6 - 2*i)` (R51). -/
def contribution (i : Nat) (v : UInt2) : Byte := zext8 v <<< (6 - 2 * i)

/-- The accumulator after the symbol of value `v` at position `i` (R68): OR into a field of its own. -/
def accumulate (acc : Byte) (i : Nat) (v : UInt2) : Byte := acc ||| contribution i v

/-- The loop of `DecodeGroup` (R68) from position `i` with accumulator `acc`: it stops at the first invalid symbol
(R71) and then gives no byte (R72). -/
def decodeFrom (al : Alphabet) : Nat → Byte → List Byte → Except Cause Byte
  | _, acc, [] => .ok acc
  | i, acc, s :: rest =>
    match codec al s with
    | .ok v => decodeFrom al (i + 1) (accumulate acc i v) rest
    | .error c => .error c

/-- `DecodeGroup(g)` (R68): the accumulator starts at zero. -/
def decodeGroup (al : Alphabet) (g : Group) : Except Cause Byte :=
  decodeFrom al 0 0x00#8 g.bytes

/-- The group of byte `y`: the inverse of `DecodeGroup` on legal groups (R73). -/
def groupOf (al : Alphabet) (y : Byte) : Group :=
  ⟨al.sym (y.extractLsb' 6 2), al.sym (y.extractLsb' 4 2), al.sym (y.extractLsb' 2 2), al.sym (y.extractLsb' 0 2)⟩

/-- `grp[i]`. -/
def GroupBuffer.entry (g : GroupBuffer) (i : Fin 4) : Option Byte :=
  match i with
  | 0 => g.e0
  | 1 => g.e1
  | 2 => g.e2
  | 3 => g.e3

/-- The whole group, if all four entries hold values. -/
def GroupBuffer.group (g : GroupBuffer) : Option Group :=
  match g.e0, g.e1, g.e2, g.e3 with
  | some s0, some s1, some s2, some s3 => some ⟨s0, s1, s2, s3⟩
  | _, _, _, _ => none

/-- The buffer after a full read: all four entries at once (R18). -/
def GroupBuffer.full (g : Group) : GroupBuffer := ⟨some g.s0, some g.s1, some g.s2, some g.s3⟩

end Sys2Proof.Machine
end

