-- ==== Sys2Proof/Machine/Ops.lean ====
section
/-! DEFINITION. The operations the meanings share: the phase an operation needs, the failure entry (60_exceptions.md
R98, the block's only exception entry; there is no return from it, R103), the end of a decode, and the words the block
takes in. -/

namespace Sys2Proof.Machine

/-- An operation that belongs to phase `p`: no step in a terminal phase (42_stream_loop.md R88), refused in another
phase (R90 last row). -/
def State.inPhase (s : State) (p : Phase) (r : Result) : Result :=
  if s.phase.terminal then .fault .terminalPhase
  else if s.phase = p then r
  else .refused (.notRequested s.phase)

/-- One more channel event (10_state.md R26). -/
def State.log (s : State) (e : Event) : State := { s with history := s.history ++ [e] }

/-- The terminal status event of the current `phase`, `cause` and `exit` (20_memory.md R36). -/
def State.logStatus (s : State) : State := s.log (.status s.phase s.cause s.exit)

/-- `ErrEmit(c)` (60_exceptions.md R100): one event; its text is the next free value. -/
def State.errEmit (s : State) (c : Cause) : State :=
  { s.log (.diagnostic c (Config.diagnosticText s.draws)) with draws := s.draws + 1 }

/-- `raise c()` (R98): `cause`, `exit`, one diagnostic event, `Failed`; then the terminal status stands. -/
def State.raise (s : State) (c : Cause) : State :=
  { ({ s with cause := some c, exit := some (s.params.failExit.of c) } : State).errEmit c with
    phase := .failed }.logStatus

/-- The accumulator is discarded at the end of a decode (10_state.md R19, 41_group_decoder.md R72). -/
def State.discardAcc (s : State) : State := { s with acc := none, pos := none }

/-- What `Decoding` does with the result of the group (42_stream_loop.md R79, R80). -/
def State.decoded (s : State) : Except Cause Byte → State
  | .ok y    => { s.discardAcc with obuf := some y, phase := .writing }
  | .error c => s.discardAcc.raise c

/-- The accumulator set to zero and the first symbol next: a group's decode starts (41_group_decoder.md R68). -/
def State.beginDecode (s : State) : State := { s with acc := some 0x00#8, pos := some 0 }

/-- The symbol-by-symbol decode that is under way, if any: its accumulator and the position it has reached. Log
entry 10. -/
def State.underway (s : State) : Option (Byte × Fin 4) :=
  match s.acc, s.pos with
  | some a, some i => some (a, i)
  | _, _ => none

/-- The body of the loop of `DecodeGroup` (R68) for a symbol of value `v` at position `i` with accumulator `a`. After
the last position the accumulator is the decoded byte. -/
def State.contribute (s : State) (v : UInt2) (a : Byte) (i : Fin 4) : State :=
  if i = 3 then s.decoded (.ok (accumulate a i v))
  else { s with acc := some (accumulate a i v), pos := some (i + 1) }

/-- A symbol of value `v`: the next one of the decode under way, or the first one of a decode that starts with it, the
accumulator set to zero (R68). DESIGN CHOICE: that a symbol with no decode under way starts one. Log entry 10. -/
def State.decodeSymbol (s : State) (v : UInt2) : State :=
  match s.underway with
  | some (a, i) => s.contribute v a i
  | none => s.contribute v 0x00#8 0

/-- A read response that ends the run with cause `c`: the bytes are consumed and discarded (42_stream_loop.md R78,
R81). -/
def State.readFails (s : State) (r : ReadResponse) (c : Cause) : State := (s.log (.read r)).raise c

/-- The write request `OutWrite(obuf)` (R82) answered by `r`: the byte leaves with the response. -/
def State.writeAnswered (s : State) (r : WriteResponse) (k : State → State) : Result :=
  match s.obuf with
  | some b => .next (k (s.log (.write b r)))
  | none => .fault (.readUnwritten .obuf)

/-- The write request that waits, if any, left unanswered by a termination (60_exceptions.md R99): whether the host
took its byte is a free value. DESIGN CHOICE: in `Writing` with no value in `obuf` (no reachable state, R29b) no request
waits, so `obuf` is not read and the termination is no fault of R13. Log entry 6. -/
def State.abandonWrite (s : State) : State :=
  match s.phase, s.obuf with
  | .writing, some b => s.log (.write b (.unanswered (Config.abortTookByte s.draws)))
  | _, _ => s

/-- The word a host action puts on its channel. -/
def HostInput.code : HostInput → Code
  | .read desc data => .rdrsp desc data
  | .write desc     => .wrrsp desc
  | .abort _        => .signal

/-- Further actions of the host come to stand behind those it has already taken (70_reset_and_hazards.md R116). -/
def State.receive (s : State) (acts : List HostInput) : State := { s with inbox := s.inbox ++ acts }

/-- What the block takes in next, and the state in which it acts on it. -/
inductive Fetched where
  | word (c : Code) (s : State)
  | stuck (f : Fault)
  deriving DecidableEq, Repr

/-- The next action of the host, or the wait for it (42_stream_loop.md R89). DESIGN CHOICE: in `Writing` with no value in
`obuf` (no reachable state, R29b) the wait and the refusal of a wrong word win over the fault of R13, which comes when a
write response uses the byte. Log entry 17. -/
def State.fetchHost (s : State) : Fetched :=
  match s.inbox with
  | [] => .stuck .waitingForHost
  | h :: rest => .word h.code { s with inbox := rest }

/-- The internal step's operand: the group in hand (R79, R80), or its next symbol where the group is being decoded
symbol by symbol. Without it, the fault of R13. -/
def State.fetchGroup (s : State) : Fetched :=
  match s.underway with
  | some (_, i) =>
    match s.grp.entry i with
    | some sym => .word (.sym8 sym) s
    | none => .stuck (.readUnwritten .grp)
  | none =>
    match s.grp.group with
    | some g => .word (.grp32 g.pack) s
    | none => .stuck (.readUnwritten .grp)

/-- What the block acts on next: nothing in a terminal phase (R88); the host's answer in `Reading` and `Writing`; in
`Decoding` the group in hand, unless the host's termination comes first (R102d). DESIGN CHOICE: it comes first too where
there is no group (no reachable state, R29a). Log entry 17. -/
def State.fetch (s : State) : Fetched :=
  match s.phase with
  | .reading | .writing => s.fetchHost
  | .decoding =>
    match s.inbox with
    | .abort true :: _ => s.fetchHost
    | _ => s.fetchGroup
  | .done | .failed | .aborted => .stuck .terminalPhase

/-- The state in which the block acts next on word `c`: the phase that takes in its format, with the word where that
phase finds it. A symbol stands at position 0 of a group whose decode has begun; a write response answers a request
for the byte in `obuf`, or for a zero byte where `obuf` holds none. Log entry 9. -/
def State.offer (s : State) (c : Code) : State :=
  match c with
  | .sym8 sym =>
    { s.beginDecode with phase := .decoding, grp := { s.grp with e0 := some sym }, inbox := [] }
  | .grp32 w =>
    { s with phase := .decoding, pos := none, grp := .full (Group.unpack w), inbox := [] }
  | .rdrsp desc data => { s with phase := .reading, inbox := .read desc data :: s.inbox }
  | .wrrsp desc =>
    { s with phase := .writing, obuf := some (s.obuf.getD 0), inbox := .write desc :: s.inbox }
  | .signal => { s with inbox := .abort true :: s.inbox }

end Sys2Proof.Machine
end

