-- ==== Sys2Proof/Machine/Codec.lean ====
section
/-! DEFINITION. The symbol operations (40_codec.md R62 to R66): what decoding one symbol of the group in hand does. The
operand's byte has selected the row at decoding; the row gives the value. Log entry 10. -/

namespace Sys2Proof.Machine

/-- `SYM_V0` (R62): `Codec(s) = Ok(0b00)`. -/
def execSymV0 (_sym : Byte) (s : State) : Result := s.inPhase .decoding (.next (s.decodeSymbol 0b00#2))

/-- `SYM_V1` (R63): `Codec(s) = Ok(0b01)`. -/
def execSymV1 (_sym : Byte) (s : State) : Result := s.inPhase .decoding (.next (s.decodeSymbol 0b01#2))

/-- `SYM_V2` (R64): `Codec(s) = Ok(0b10)`. -/
def execSymV2 (_sym : Byte) (s : State) : Result := s.inPhase .decoding (.next (s.decodeSymbol 0b10#2))

/-- `SYM_V3` (R65): `Codec(s) = Ok(0b11)`. -/
def execSymV3 (_sym : Byte) (s : State) : Result := s.inPhase .decoding (.next (s.decodeSymbol 0b11#2))

/-- `SYM_INVALID` (R66): the group's decode fails, at once (R71). -/
def execSymInvalid (_sym : Byte) (s : State) : Result :=
  s.inPhase .decoding (.next (s.decoded (.error .invalidSymbol)))

end Sys2Proof.Machine
end

