-- ==== Sys2Proof/Machine/GroupDecoder.lean ====
section
/-! DEFINITION. `DECODE_GROUP`, the internal step of `Decoding` (42_stream_loop.md R79, R80): one atomic step
(92_eei_decisions.md D8). -/

namespace Sys2Proof.Machine

/-- `DECODE_GROUP` (41_group_decoder.md R68): success to `Writing` (R80), an invalid symbol to `Failed` (R79). -/
def execDecodeGroup (s0 s1 s2 s3 : Byte) (s : State) : Result :=
  s.inPhase .decoding (.next (s.decoded (decodeGroup s.params.alphabet ⟨s0, s1, s2, s3⟩)))

end Sys2Proof.Machine
end

