-- ==== Sys2Proof/Machine/StreamReads.lean ====
section
/-! DEFINITION. The read responses, in `Reading` (42_stream_loop.md R77, R78, R81, R86). -/

namespace Sys2Proof.Machine

/-- `RD_FULL` (R77): the four bytes are not checked here. -/
def execRdFull (b0 b1 b2 b3 : Byte) (s : State) : Result :=
  s.inPhase .reading <| .next
    { s.log (.read (.data [b0, b1, b2, b3])) with grp := .full ⟨b0, b1, b2, b3⟩, phase := .decoding }

/-- `RD_SHORT1` (R78). -/
def execRdShort1 (b0 : Byte) (s : State) : Result :=
  s.inPhase .reading (.next (s.readFails (.data [b0]) .truncatedInput))

/-- `RD_SHORT2` (R78). -/
def execRdShort2 (b0 b1 : Byte) (s : State) : Result :=
  s.inPhase .reading (.next (s.readFails (.data [b0, b1]) .truncatedInput))

/-- `RD_SHORT3` (R78). -/
def execRdShort3 (b0 b1 b2 : Byte) (s : State) : Result :=
  s.inPhase .reading (.next (s.readFails (.data [b0, b1, b2]) .truncatedInput))

/-- `RD_EOF` (R86): a clean end of stream; no partial group can be pending (R87). -/
def execRdEof (s : State) : Result :=
  s.inPhase .reading <| .next
    { s.log (.read (.data [])) with exit := some 0, phase := .done }.logStatus

/-- `RD_ERR` (R81). -/
def execRdErr (s : State) : Result :=
  s.inPhase .reading (.next (s.readFails .readErr .readFault))

end Sys2Proof.Machine
end

