-- ==== Sys2Proof/Machine/StreamWrites.lean ====
section
/-! DEFINITION. The write responses, in `Writing` (42_stream_loop.md R82 to R85). -/

namespace Sys2Proof.Machine

/-- `WR_OK` (R83): the byte is output, and the next group is asked for. -/
def execWrOk (s : State) : Result :=
  s.inPhase .writing (s.writeAnswered (.wrote 1) fun t => { t with phase := .reading })

/-- `WR_ZERO` (R84): a fault, not a retry. -/
def execWrZero (s : State) : Result :=
  s.inPhase .writing (s.writeAnswered (.wrote 0) fun t => t.raise .writeFault)

/-- `WR_OVER` (R84). -/
def execWrOver (n : BitVec 3) (s : State) : Result :=
  s.inPhase .writing (s.writeAnswered (.wrote n.toNat) fun t => t.raise .writeFault)

/-- `WR_ERR` (R85). -/
def execWrErr (s : State) : Result :=
  s.inPhase .writing (s.writeAnswered .writeErr fun t => t.raise .writeFault)

end Sys2Proof.Machine
end

