-- ==== Sys2Proof/Machine/Termination.lean ====
section
/-! DEFINITION. `ABORT`, the host's termination signal (60_exceptions.md R99). -/

namespace Sys2Proof.Machine

/-- `ABORT` (R99): from any phase that is not terminal to `Aborted`. `cause` is kept, no diagnostic is emitted, and
`exit` is a free value, as is whether a waiting write had reached the host. -/
def execAbort (s : State) : Result :=
  if s.phase.terminal then .fault .terminalPhase
  else .next
    { s.abandonWrite with
      phase := .aborted, exit := some (Config.abortExit s.draws), draws := s.draws + 1 }.logStatus

end Sys2Proof.Machine
end

