-- ==== Sys2Proof/Machine/Dispatch.lean ====
section
/-! DEFINITION. Each operation's meaning, by one direct call. -/

namespace Sys2Proof.Machine

def exec (i : Instr) (s : State) : Host.Outcome State Fault Refusal :=
  match i with
  -- the symbols of the group in hand (40_codec.md)
  | .symV0 sym => Sys2Proof.Machine.execSymV0 sym s
  | .symV1 sym => Sys2Proof.Machine.execSymV1 sym s
  | .symV2 sym => Sys2Proof.Machine.execSymV2 sym s
  | .symV3 sym => Sys2Proof.Machine.execSymV3 sym s
  | .symInvalid sym => Sys2Proof.Machine.execSymInvalid sym s
  -- the group (41_group_decoder.md)
  | .decodeGroup s0 s1 s2 s3 => Sys2Proof.Machine.execDecodeGroup s0 s1 s2 s3 s
  -- the read responses (42_stream_loop.md)
  | .rdFull b0 b1 b2 b3 => Sys2Proof.Machine.execRdFull b0 b1 b2 b3 s
  | .rdShort1 b0 => Sys2Proof.Machine.execRdShort1 b0 s
  | .rdShort2 b0 b1 => Sys2Proof.Machine.execRdShort2 b0 b1 s
  | .rdShort3 b0 b1 b2 => Sys2Proof.Machine.execRdShort3 b0 b1 b2 s
  | .rdEof => Sys2Proof.Machine.execRdEof s
  | .rdErr => Sys2Proof.Machine.execRdErr s
  -- the write responses (42_stream_loop.md)
  | .wrOk => Sys2Proof.Machine.execWrOk s
  | .wrZero => Sys2Proof.Machine.execWrZero s
  | .wrOver n => Sys2Proof.Machine.execWrOver n s
  | .wrErr => Sys2Proof.Machine.execWrErr s
  -- the termination signal (60_exceptions.md)
  | .abort => Sys2Proof.Machine.execAbort s

end Sys2Proof.Machine
end

