-- ==== Sys2Proof/Machine/Step.lean ====
section
/-! DEFINITION. One step (42_stream_loop.md R90): fetch a word, decode it, run it. -/

namespace Sys2Proof.Machine

/-- Decode a word under the block's alphabet and run the operation in `s`; a word outside the host's contract is
refused. -/
def runWord (c : Code) (s : State) : Host.Outcome State Fault Refusal :=
  match decode s.params.alphabet c with
  | .ok i => exec i s
  | .error e => .refused (.outsideContract e)

/-- One transition of the block, or why there is none. -/
def step (s : State) : Host.Outcome State Fault Refusal :=
  match s.fetch with
  | .word c t => runWord c t
  | .stuck f => .fault f

/-- `s` with the operation of a table word next (log entry 9); unchanged where the bits are no word of the table. -/
def State.withFetchWord (s : State) (nbits w : Nat) : State :=
  match codeOfTableWord nbits w with
  | some c => s.offer c
  | none => s

end Sys2Proof.Machine
end

