-- ==== Sys2Proof/Safety.lean ====
section
/-! DEFINITION. The terms claims use: runs of a given script, runs beside a host that acts in time and without end
(70_reset_and_hazards.md R116 to R120), the invariants of 10_state.md R29 to R31, the order of channel events
(20_memory.md R43), the reference host (92_eei_decisions.md D20), and what the spec leaves open of an outcome
(42_stream_loop.md R92). -/

namespace Sys2Proof.Machine

/-- `k` steps, stopping at the first fault or refusal. -/
def runFor : Nat → State → Result
  | 0, s => .next s
  | k + 1, s =>
    match step s with
    | .next t => runFor k t
    | .fault f => .fault f
    | .refused r => .refused r

/-- `t` comes after some number of steps from `s`. -/
def Reaches (s t : State) : Prop := ∃ k, runFor k s = .next t

/-- A state of a run from reset: of a block built with some legal parameters, before some host (R27). -/
def Reachable (s : State) : Prop := ∃ p inbox, p.wf = true ∧ Reaches (.start p inbox) s

/-! A host in time. A script in State is finite. A host is not: it may act for ever, and delay without bound (R116). -/

/-- What the host does: `h n` are its actions in its turn `n`; none is a delay. -/
abbrev HostPlan := Nat → List HostInput

/-- One turn: the host acts, then the block takes a step if it has one. If it has none it is unchanged: it waits
(42_stream_loop.md R89), or the run is over and the actions have no effect (R88). -/
def hostTurn (acts : List HostInput) (s : State) : Result :=
  match step (s.receive acts) with
  | .next t => .next t
  | .fault f => if f = .waitingForHost ∨ f = .terminalPhase then .next s else .fault f
  | .refused r => .refused r

/-- The run from `s` beside the host `h`, after `n` turns. -/
def runWith (h : HostPlan) : Nat → State → Result
  | 0, s => .next s
  | n + 1, s =>
    match runWith h n s with
    | .next t => hostTurn (h n) t
    | .fault f => .fault f
    | .refused r => .refused r

/-- The action is a response of the host's contract to the request (20_memory.md R34, R35; 30_encoding.md R54, R55). -/
def Request.answeredBy : Request → HostInput → Bool
  | .inRead _, .read desc data => (decodeRead desc data).isOk
  | .inRead _, .write _ => false
  | .outWrite _, .write desc => (decodeWrite desc).isOk
  | .outWrite _, .read _ _ => false
  | _, .abort _ => false

/-- The fairness premise `HostAnswers` (R120): every request that the run beside `h` issues gets a response after
finitely many turns, unless the termination ends the run. -/
def HostAnswers (h : HostPlan) (s : State) : Prop :=
  ∀ n t q, runWith h n s = .next t → t.request = some q →
    ∃ m u a rest, n ≤ m ∧ runWith h m s = .next u ∧ u.request = some q ∧ (u.receive (h m)).inbox = a :: rest ∧
      (q.answeredBy a = true ∨ ∃ early, a = .abort early)

/-- How many input bytes an action carries. -/
def HostInput.carried : HostInput → Nat
  | .read _ data => data.length
  | .write _ => 0
  | .abort _ => 0

/-- How many input bytes a list of actions carries. -/
def carried (acts : List HostInput) : Nat := (acts.map HostInput.carried).sum

/-- The input has finite length (R119): all that the host ever sends is at most some number of bytes. -/
def FiniteInput (h : HostPlan) : Prop := ∃ N, ∀ n, carried ((List.range n).flatMap h) ≤ N

/-- The host that keeps sending `Data(4)` without end (R119): the groups `gs 0`, `gs 1`, … in order, each answer in
the turn in which it is due, every write accepted. -/
def endlessHost (gs : Nat → Group) : HostPlan := fun n =>
  if n % 3 = 0 then [.read 0b0100#4 (gs (n / 3)).bytes]
  else if n % 3 = 2 then [.write 0b0001#4]
  else []

/-- The phase whose input an operation is (the table's column `phase`); `abort` belongs to every phase that is not
terminal. -/
def phaseOf : Instr → Option Phase
  | .symV0 _ | .symV1 _ | .symV2 _ | .symV3 _ | .symInvalid _ | .decodeGroup _ _ _ _ => some .decoding
  | .rdFull _ _ _ _ | .rdShort1 _ | .rdShort2 _ _ | .rdShort3 _ _ _ | .rdEof | .rdErr => some .reading
  | .wrOk | .wrZero | .wrOver _ | .wrErr => some .writing
  | .abort => none

/-- No group is being decoded symbol by symbol: the accumulator holds nothing (R19, R27). Between the steps of a run
from reset this always holds. -/
def State.Idle (s : State) : Prop := s.acc = none ∧ s.pos = none

/-- No termination comes before the internal step. -/
def State.noEarlyAbort (s : State) : Prop := ∀ rest, s.inbox ≠ .abort true :: rest

/-- The state invariants of R29 (a) to (e), with what they need to be kept by every step: the parameters are legal, the
accumulator is idle, a group in hand has been consumed and is not yet output, and at a clean end every group consumed
has been output (R30). -/
structure State.Inv (s : State) : Prop where
  params_wf          : s.params.wf = true
  idle               : s.Idle
  decoding_has_group : s.phase = .decoding → s.grp.group ≠ none
  writing_has_byte   : s.phase = .writing → s.obuf ≠ none
  failed_iff_cause   : s.phase = .failed ↔ s.cause ≠ none
  exit_none_iff      : s.exit = none ↔ s.phase.terminal = false
  settled            : s.phase = .reading ∨ s.phase = .done →
                         inConsumed s.history = 4 * (output s.history).length
  in_hand            : s.phase = .decoding ∨ s.phase = .writing →
                         inConsumed s.history = 4 * (output s.history).length + 4

/-- The events of the groups that succeeded, in order: for each, its read response and its write (R43). -/
def groupEvents (done : List (Group × Byte)) : List Event :=
  done.flatMap fun p => [.read (.data p.1.bytes), .write p.2 (.wrote 1)]

/-- The channel events of the step or steps that end a run with cause `c` (60_exceptions.md R94), before the
diagnostic. -/
def FailingEvents (al : Alphabet) : Cause → List Event → Prop
  | .invalidSymbol, evs  => ∃ g, decodeGroup al g = .error .invalidSymbol ∧ evs = [.read (.data g.bytes)]
  | .truncatedInput, evs => ∃ bs : List Byte, 1 ≤ bs.length ∧ bs.length ≤ 3 ∧ evs = [.read (.data bs)]
  | .readFault, evs      => evs = [.read .readErr]
  | .writeFault, evs     => ∃ g y r, decodeGroup al g = .ok y ∧ (r = .writeErr ∨ ∃ n, n ≠ 1 ∧ r = .wrote n) ∧
      evs = [.read (.data g.bytes), .write y r]

/-- The events after the last group that succeeded, phase by phase. While a group is decoded symbol by symbol, the
accumulator holds what the rest of its symbols complete. -/
def State.LastEvents (s : State) (evs : List Event) : Prop :=
  match s.phase with
  | .reading  => s.Idle ∧ evs = []
  | .decoding => ∃ g, s.grp.group = some g ∧ evs = [.read (.data g.bytes)] ∧
      (s.Idle ∨ ∃ i a, s.pos = some i ∧ s.acc = some a ∧
        decodeFrom s.params.alphabet i a (g.bytes.drop i) = decodeGroup s.params.alphabet g)
  | .writing  => s.Idle ∧ ∃ g y, decodeGroup s.params.alphabet g = .ok y ∧ s.obuf = some y ∧
      evs = [.read (.data g.bytes)]
  | .done     => evs = [.read (.data []), .status .done s.cause s.exit]
  | .failed   => ∃ c text before, s.cause = some c ∧ FailingEvents s.params.alphabet c before ∧
      evs = before ++ [.diagnostic c text, .status .failed s.cause s.exit]
  | .aborted  => ∃ before, evs = before ++ [.status .aborted s.cause s.exit] ∧
      (before = [] ∨ ∃ g, before = [.read (.data g.bytes)] ∨
        ∃ y taken, decodeGroup s.params.alphabet g = .ok y ∧
          before = [.read (.data g.bytes), .write y (.unanswered taken)])

/-- The channel history is that of some groups that succeeded, each read, decoded and written before the next is read,
and then of what the phase says (R31, R38, R43). -/
def State.HistoryOk (s : State) : Prop :=
  ∃ done evs, (∀ p ∈ done, decodeGroup s.params.alphabet p.1 = .ok p.2) ∧
    s.history = groupEvents done ++ evs ∧ s.LastEvents evs

/-- The state a failure with cause `c` leaves, after the channel events `evs` of the failing step and with diagnostic text
`text` (60_exceptions.md R98, R100): everything not named here is as in `s`. -/
def State.failedWith (s : State) (c : Cause) (evs : List Event) (text : String) : State :=
  { s with
    cause   := some c
    exit    := some (s.params.failExit.of c)
    phase   := .failed
    history := s.history ++ evs ++
      [.diagnostic c text, .status .failed (some c) (some (s.params.failExit.of c))]
    draws   := s.draws + 1 }

/-- The script of the reference host on the input bytes `bs` (D20, R91): reads of 4 bytes, each write accepted, then
the remainder in one read, or the end of the stream. -/
def refHost : List Byte → List HostInput
  | b0 :: b1 :: b2 :: b3 :: rest =>
    .read 0b0100#4 [b0, b1, b2, b3] :: .write 0b0001#4 :: refHost rest
  | [b0, b1, b2] => [.read 0b0011#4 [b0, b1, b2]]
  | [b0, b1]     => [.read 0b0010#4 [b0, b1]]
  | [b0]         => [.read 0b0001#4 [b0]]
  | []           => [.read 0b0000#4 []]

/-- An event without what the spec leaves open: the diagnostic text and a failure's exit value (R92). -/
def Event.closed : Event → Event
  | .read r         => .read r
  | .write b r      => .write b r
  | .diagnostic c _ => .diagnostic c ""
  | .status p c e   => .status p c (if p = .done then e else none)

/-- A state without what the spec leaves open of an outcome: the diagnostic text, `FAIL_EXIT` and the exit value it
gives, and the count of free values (R92). -/
def State.closed (s : State) : State :=
  { s with
    exit    := if s.phase = .done then s.exit else none
    history := s.history.map Event.closed
    params  := { s.params with failExit := ⟨0, 0, 0, 0⟩ }
    draws   := 0 }

/-- The host only answers requests: it never terminates the block. -/
def State.noAbort (s : State) : Prop := ∀ b, HostInput.abort b ∉ s.inbox

end Sys2Proof.Machine
end

