-- ==== Sys2Proof/Certificates/Slice0/Obligations.lean ====
section
/-! DEFINITION. The statements for the provers: what the numbered rules of the spec say of this machine. -/

open Sys2Proof Sys2Proof.Machine

/-! ### Words and operations -/

/-- 30_encoding.md R48 to R55: decoding the word of a well-formed operation gives that operation, with every operand. -/
def Obligations.DecodeOfEncodeIsIdentity : Prop :=
  ∀ (al : Alphabet) (i : Instr), al.wf = true → i.wf al = true → decode al (encode i) = .ok i

/-- 30_encoding.md R60: every byte is exactly one `SYM` operation, every read response of the contract and every write
response is the word of an operation of its own phase. -/
def Obligations.EveryContractWordIsOneOperation : Prop :=
  (∀ (al : Alphabet) (b : Byte), al.wf = true →
    ∃ i ∈ [Instr.symV0 b, .symV1 b, .symV2 b, .symV3 b, .symInvalid b],
      decode al (.sym8 b) = .ok i ∧
      ∀ j ∈ [Instr.symV0 b, .symV1 b, .symV2 b, .symV3 b, .symInvalid b], j.wf al = true ↔ j = i) ∧
  (∀ (al : Alphabet) (data : List Byte), data.length ≤ 4 →
    ∃ i, decode al (.rdrsp (BitVec.ofNat 4 data.length) data) = .ok i ∧ phaseOf i = some .reading) ∧
  (∀ al : Alphabet, decode al (.rdrsp 0b1000#4 []) = .ok .rdErr) ∧
  (∀ (al : Alphabet) (n : Nat),
    ∃ i, decode al (.wrrsp (BitVec.ofNat 4 (min n 7))) = .ok i ∧ phaseOf i = some .writing ∧ (i = .wrOk ↔ n = 1)) ∧
  (∀ al : Alphabet, decode al (.wrrsp 0b1000#4) = .ok .wrErr)

/-- 30_encoding.md R52 to R55, R49: words of every format, written out from the spec's encodings. A sanity check. -/
def Obligations.WordsOfEachFormatDecode : Prop :=
  ∀ al : Alphabet, al.wf = true →
    decode al (.sym8 al.a) = .ok (.symV0 al.a) ∧
    decode al (.sym8 al.d) = .ok (.symV3 al.d) ∧
    decode al (.grp32 0x41424344#32) = .ok (.decodeGroup 0x41#8 0x42#8 0x43#8 0x44#8) ∧
    decode al (.rdrsp 0b0100#4 [0x41#8, 0x42#8, 0x43#8, 0x44#8]) = .ok (.rdFull 0x41#8 0x42#8 0x43#8 0x44#8) ∧
    decode al (.rdrsp 0b0011#4 [0x41#8, 0x42#8, 0x43#8]) = .ok (.rdShort3 0x41#8 0x42#8 0x43#8) ∧
    decode al (.rdrsp 0b1000#4 []) = .ok .rdErr ∧
    decode al (.wrrsp 0b0001#4) = .ok .wrOk ∧
    decode al (.wrrsp 0b0111#4) = .ok (.wrOver 7#3) ∧
    decode al (.wrrsp 0b1000#4) = .ok .wrErr

/-- 30_encoding.md R54, R55 (D10, D11): a response descriptor outside the host's contract is refused, whatever bytes
come with it.
That it is refused in states with an unwritten element too, and in the phase of the other channel, is log entry 17. -/
def Obligations.ReservedDescriptorsAreRefused : Prop :=
  (∀ (s : State) (desc : Descriptor) (data : List Byte) (rest : List HostInput),
    s.phase = .reading ∨ s.phase = .writing → s.inbox = .read desc data :: rest →
    (5 ≤ desc.toNat ∧ desc.toNat ≤ 7 ∨ 9 ≤ desc.toNat) →
    step s = .refused (.outsideContract (.readDescriptor desc))) ∧
  (∀ (s : State) (desc : Descriptor) (rest : List HostInput),
    s.phase = .reading ∨ s.phase = .writing → s.inbox = .write desc :: rest → 9 ≤ desc.toNat →
    step s = .refused (.outsideContract (.writeDescriptor desc)))

/-! ### The codec and the group decoder as functions -/

/-- 40_codec.md R61 to R66: `Codec` gives `v` for `ALPHABET(v)` and fails on every other byte, with InvalidSymbol. -/
def Obligations.CodecInvertsTheAlphabet : Prop :=
  ∀ al : Alphabet, al.wf = true →
    (∀ v : UInt2, codec al (al.sym v) = .ok v) ∧
    (∀ b : Byte, b ∉ al.legal → codec al b = .error .invalidSymbol)

/-- 30_encoding.md R53: 252 byte values are illegal as symbols. -/
def Obligations.IllegalSymbolCountIs252 : Prop :=
  ∀ al : Alphabet, al.wf = true → (Finset.univ.filter fun b : Byte => b ∉ al.legal).card = 252

/-- 41_group_decoder.md R72: a byte exactly when all four symbols decode; otherwise InvalidSymbol and no byte. -/
def Obligations.GroupDecodesOnlyWhole : Prop :=
  ∀ (al : Alphabet) (g : Group),
    ((∃ y, decodeGroup al g = .ok y) ↔ ∀ b ∈ g.bytes, b ∈ al.legal) ∧
    (decodeGroup al g = .error .invalidSymbol ↔ ∃ b ∈ g.bytes, b ∉ al.legal)

/-- 41_group_decoder.md R69: the closed form of a successful decode, as a number and field by field. -/
def Obligations.GroupDecodeClosedForm : Prop :=
  ∀ (al : Alphabet) (g : Group) (v0 v1 v2 v3 : UInt2),
    codec al g.s0 = .ok v0 → codec al g.s1 = .ok v1 → codec al g.s2 = .ok v2 → codec al g.s3 = .ok v3 →
    ∃ y, decodeGroup al g = .ok y ∧
      y.toNat = v0.toNat * 64 + v1.toNat * 16 + v2.toNat * 4 + v3.toNat ∧
      y.extractLsb' 6 2 = v0 ∧ y.extractLsb' 4 2 = v1 ∧ y.extractLsb' 2 2 = v2 ∧ y.extractLsb' 0 2 = v3

/-- 41_group_decoder.md section 1, the integer law (R70, which the spec itself marks as an equivalence to be kept):
contributions at different positions share no bit, so that OR is addition, pair by pair and for the whole group. -/
def Obligations.OrOfContributionsIsAddition : Prop :=
  (∀ (i j : Fin 4) (v w : UInt2), i ≠ j →
    contribution i v &&& contribution j w = 0 ∧
    (contribution i v ||| contribution j w).toNat = (contribution i v).toNat + (contribution j w).toNat) ∧
  (∀ v0 v1 v2 v3 : UInt2,
    accumulate (accumulate (accumulate (accumulate 0 0 v0) 1 v1) 2 v2) 3 v3 =
      contribution 0 v0 + contribution 1 v1 + contribution 2 v2 + contribution 3 v3)

/-- 41_group_decoder.md R73: on legal groups `DecodeGroup` is a bijection onto the bytes, with the inverse the rule
gives. -/
def Obligations.GroupDecodeIsBijective : Prop :=
  ∀ al : Alphabet, al.wf = true →
    (∀ y : Byte, decodeGroup al (groupOf al y) = .ok y) ∧
    (∀ (g : Group) (y : Byte), decodeGroup al g = .ok y → g = groupOf al y)

/-- 41_group_decoder.md R74: replacing one symbol by another legal one changes only its own lane. -/
def Obligations.GroupDecodeLanesAreIndependent : Prop :=
  ∀ (al : Alphabet) (g : Group) (y : Byte) (v : UInt2), al.wf = true → decodeGroup al g = .ok y →
    (∃ z, decodeGroup al { g with s0 := al.sym v } = .ok z ∧ z.extractLsb' 6 2 = v ∧
      z.extractLsb' 0 6 = y.extractLsb' 0 6) ∧
    (∃ z, decodeGroup al { g with s1 := al.sym v } = .ok z ∧ z.extractLsb' 4 2 = v ∧
      z.extractLsb' 6 2 = y.extractLsb' 6 2 ∧ z.extractLsb' 0 4 = y.extractLsb' 0 4) ∧
    (∃ z, decodeGroup al { g with s2 := al.sym v } = .ok z ∧ z.extractLsb' 2 2 = v ∧
      z.extractLsb' 4 4 = y.extractLsb' 4 4 ∧ z.extractLsb' 0 2 = y.extractLsb' 0 2) ∧
    (∃ z, decodeGroup al { g with s3 := al.sym v } = .ok z ∧ z.extractLsb' 0 2 = v ∧
      z.extractLsb' 2 6 = y.extractLsb' 2 6)

/-! ### The step -/

/-- 42_stream_loop.md R90: a step runs the decoded operation. In `Reading` and `Writing` it is the host's next action,
which leaves the script. In `Decoding` it is the group in hand (its next symbol, where the group is being decoded
symbol by symbol), unless the host's termination comes first.
That a word is taken in, and a termination wins, where an element is unwritten too, is log entry 17. -/
def Obligations.StepRunsTheDecodedOperation : Prop :=
  (∀ (s : State) (h : HostInput) (rest : List HostInput) (i : Instr),
    s.phase = .reading ∨ s.phase = .writing → s.inbox = h :: rest →
    decode s.params.alphabet h.code = .ok i → step s = exec i { s with inbox := rest }) ∧
  (∀ (s : State) (g : Group), s.phase = .decoding → s.noEarlyAbort → s.underway = none → s.grp.group = some g →
    step s = exec (.decodeGroup g.s0 g.s1 g.s2 g.s3) s) ∧
  (∀ (s : State) (a : Byte) (p : Fin 4) (sym : Byte) (i : Instr), s.phase = .decoding → s.noEarlyAbort →
    s.underway = some (a, p) → s.grp.entry p = some sym → decode s.params.alphabet (.sym8 sym) = .ok i → step s = exec i s) ∧
  (∀ (s : State) (rest : List HostInput), s.phase = .decoding → s.inbox = .abort true :: rest →
    step s = exec .abort { s with inbox := rest })

/-- 42_stream_loop.md R88 and R89: there is no step in a terminal phase, whatever the host does, and none while a
request has no response; and these two are the only waits. That the model words 'no step' as a named fault, for
`exec .abort` too, is log entry 12; that the wait wins in `Writing` with no value in `obuf`, log entry 17. -/
def Obligations.NoStepWhenWaitingOrTerminal : Prop :=
  (∀ s : State, s.phase.terminal = true → step s = .fault .terminalPhase) ∧
  (∀ (i : Instr) (s : State), s.phase.terminal = true → exec i s = .fault .terminalPhase) ∧
  (∀ s : State, s.phase.terminal = true → s.request = none) ∧
  (∀ s : State, step s = .fault .waitingForHost ↔
    (s.phase = .reading ∨ s.phase = .writing) ∧ s.inbox = [])

/-- 30_encoding.md R57 and the last row of R90: an operation of another phase than the one the block is in is
refused.
That it is refused in states with an unwritten element too is log entry 17. -/
def Obligations.OperationOfAnotherPhaseIsRefused : Prop :=
  ∀ (i : Instr) (s : State) (p : Phase), phaseOf i = some p → s.phase ≠ p → s.phase.terminal = false →
    exec i s = .refused (.notRequested s.phase)

/-- 00_scope.md R13 (I10): reading `obuf` or `grp` where nothing has written it stops with a fault. The accumulator is
always set before it is read (R68; `Obligations.LegalSymbolsAccumulate`). That a buffer with only some entries written
counts as no group is log entry 15, and that a symbol's entry is read by a step of its own log entry 10. -/
def Obligations.ReadingAnUnwrittenElementFaults : Prop :=
  (∀ (s : State) (n : BitVec 3), s.phase = .writing → s.obuf = none →
    ∀ i ∈ [Instr.wrOk, .wrZero, .wrOver n, .wrErr], exec i s = .fault (.readUnwritten .obuf)) ∧
  (∀ s : State, s.phase = .decoding → s.noEarlyAbort → s.underway = none → s.grp.group = none →
    step s = .fault (.readUnwritten .grp)) ∧
  (∀ (s : State) (a : Byte) (p : Fin 4), s.phase = .decoding → s.noEarlyAbort → s.underway = some (a, p) →
    s.grp.entry p = none → step s = .fault (.readUnwritten .grp))

/-! ### Symbols -/

/-- 41_group_decoder.md R68, the body of its loop, for `SYM_V0` to `SYM_V3` (40_codec.md R62 to R65): before the last
position the symbol's value is ORed into the accumulator at its own place and the next position follows; at the last
position the accumulator is the decoded byte, it is handed on to `Writing` and it is discarded. Where no decode is under
way the symbol is the first of one, its accumulator set to zero. So these four complete in every state of `Decoding`. That
they are steps of their own is log entry 10. -/
def Obligations.LegalSymbolsAccumulate : Prop :=
  ∀ (s : State) (sym : Byte), s.phase = .decoding →
    ∀ iv ∈ [(Instr.symV0 sym, 0x00#8), (.symV1 sym, 0x01#8), (.symV2 sym, 0x02#8), (.symV3 sym, 0x03#8)],
      (∀ (a : Byte) (p : Fin 4), s.acc = some a → s.pos = some p →
        exec iv.1 s =
          if p = 3 then
            .next { s with acc := none, pos := none, obuf := some (a ||| iv.2), phase := .writing }
          else
            .next { s with acc := some (a ||| iv.2 <<< (6 - 2 * p.val)), pos := some (p + 1) }) ∧
      (s.acc = none ∨ s.pos = none →
        exec iv.1 s = .next { s with acc := some (iv.2 <<< 6), pos := some 1 })

/-- 40_codec.md R62 to R65, the corner cases: at position `i` a symbol of value 0 contributes no bit, of value 1 bit
`6-2i`, of value 2 bit `7-2i`, of value 3 both. -/
def Obligations.SymbolContributesItsOwnBits : Prop :=
  ∀ (i : Fin 4) (j : Fin 8),
    (contribution i 0).getLsbD j = false ∧
    ((contribution i 1).getLsbD j = true ↔ j.val = 6 - 2 * i.val) ∧
    ((contribution i 2).getLsbD j = true ↔ j.val = 7 - 2 * i.val) ∧
    ((contribution i 3).getLsbD j = true ↔ j.val = 6 - 2 * i.val ∨ j.val = 7 - 2 * i.val)

/-- 40_codec.md R66, 60_exceptions.md R95: an invalid symbol fails the group's decode at once, whatever the position,
and the partial accumulator is discarded. That it is a step of its own is log entry 10. Exactly one diagnostic event is the
spec's own decision D9, the terminal status as an event of the same step log entry 13.
That it fails with no decode under way too is log entry 17. -/
def Obligations.InvalidSymbolFailsTheDecode : Prop :=
  ∀ (s : State) (sym : Byte), s.phase = .decoding →
    ∃ text, exec (.symInvalid sym) s =
      .next ({ s with acc := none, pos := none }.failedWith .invalidSymbol [] text)

/-- 41_group_decoder.md R68 and 92_eei_decisions.md D8: running the loop symbol by symbol, from an accumulator of zero
at position 0, comes within four steps to the very state that the one atomic step gives.
That single symbols are steps of their own, which the block's decode is not (D8), is the model's choice, log entry 10. -/
def Obligations.SymbolStepsReachTheGroupStep : Prop :=
  ∀ (s t : State), s.phase = .decoding → s.Idle → s.noEarlyAbort → step s = .next t →
    ∃ k, k ≤ 4 ∧ runFor k s.beginDecode = .next t

/-! ### Groups -/

/-- 42_stream_loop.md R80, 41_group_decoder.md R69: a group of legal symbols of values v0 to v3 goes to `Writing` with
the byte whose bit pairs are v0, v1, v2, v3, and changes nothing else. -/
def Obligations.LegalGroupDecodesToWriting : Prop :=
  ∀ (s : State) (v0 v1 v2 v3 : UInt2), s.phase = .decoding → s.params.wf = true →
    exec (.decodeGroup (s.params.alphabet.sym v0) (s.params.alphabet.sym v1) (s.params.alphabet.sym v2)
        (s.params.alphabet.sym v3)) s =
      .next { s with acc := none, pos := none, obuf := some (v0 ++ v1 ++ v2 ++ v3), phase := .writing }

/-- 42_stream_loop.md R79: a group with an illegal symbol fails with InvalidSymbol; no write request is issued and
`obuf` is not written. Exactly one diagnostic event is the spec's own decision D9, the terminal status as an event of
the same step log entry 13. -/
def Obligations.IllegalGroupFails : Prop :=
  ∀ (s : State) (g : Group), s.phase = .decoding → (∃ b ∈ g.bytes, b ∉ s.params.alphabet.legal) →
    ∃ text, exec (.decodeGroup g.s0 g.s1 g.s2 g.s3) s =
      .next ({ s with acc := none, pos := none }.failedWith .invalidSymbol [] text)

/-- Frame of the symbol and group operations (R68, R79, R80): the group, the host's script and the parameters stay, no
byte is consumed or output; `obuf` changes only on the way to `Writing`; `cause`, `exit` and the history only on the
way to `Failed`.
That symbols are operations of their own is log entry 10. -/
def Obligations.FrameOfDecodingOperations : Prop :=
  ∀ (i : Instr) (s t : State), phaseOf i = some .decoding → exec i s = .next t →
    t.grp = s.grp ∧ t.inbox = s.inbox ∧ t.params = s.params ∧
    inConsumed t.history = inConsumed s.history ∧ output t.history = output s.history ∧
    (t.phase ≠ .writing → t.obuf = s.obuf) ∧
    (t.phase ≠ .failed → t.cause = s.cause ∧ t.exit = s.exit ∧ t.history = s.history ∧ t.draws = s.draws)

/-! ### Read responses -/

/-- 42_stream_loop.md R77: a full read writes all four entries of the group buffer and goes to `Decoding`, whatever the
bytes are. -/
def Obligations.FullReadFillsTheGroup : Prop :=
  ∀ (s : State) (b0 b1 b2 b3 : Byte), s.phase = .reading →
    s.request = some (.inRead 4) ∧
    exec (.rdFull b0 b1 b2 b3) s =
      .next { s with
        grp := ⟨some b0, some b1, some b2, some b3⟩
        phase := .decoding
        history := s.history ++ [.read (.data [b0, b1, b2, b3])] }

/-- 42_stream_loop.md R78: a short read of 1, 2 or 3 bytes fails with TruncatedInput; its bytes are consumed and
discarded, and `grp` is not written (the spec's own decisions D10 and D24). Exactly one diagnostic event is the spec's own
decision D9, the terminal status as an event of the same step log entry 13. -/
def Obligations.ShortReadFailsTruncated : Prop :=
  ∀ (s : State) (b0 b1 b2 : Byte), s.phase = .reading →
    (∃ text, exec (.rdShort1 b0) s =
      .next (s.failedWith .truncatedInput [.read (.data [b0])] text)) ∧
    (∃ text, exec (.rdShort2 b0 b1) s =
      .next (s.failedWith .truncatedInput [.read (.data [b0, b1])] text)) ∧
    (∃ text, exec (.rdShort3 b0 b1 b2) s =
      .next (s.failedWith .truncatedInput [.read (.data [b0, b1, b2])] text))

/-- 42_stream_loop.md R86: a read of zero bytes ends the run in `Done` with exit status 0 and no diagnostic event. That
the terminal status is an event of the same step is log entry 13. -/
def Obligations.EndOfStreamIsDone : Prop :=
  ∀ s : State, s.phase = .reading →
    exec .rdEof s =
      .next { s with
        exit := some 0
        phase := .done
        history := s.history ++ [.read (.data []), .status .done s.cause (some 0)] }

/-- 42_stream_loop.md R81: a read error fails with ReadFault; no byte is delivered and `grp` is not written. Exactly one
diagnostic event is the spec's own decision D9, the terminal status as an event of the same step log entry 13. -/
def Obligations.ReadErrorFails : Prop :=
  ∀ s : State, s.phase = .reading →
    ∃ text, exec .rdErr s = .next (s.failedWith .readFault [.read .readErr] text)

/-- Frame of the read responses (R77, R78, R81, R86): the accumulator, `obuf`, the host's script, the parameters and
`OUT` stay; the group buffer changes only by a full read, `cause` only on the way to `Failed`, `exit` only on the way to
a terminal phase. -/
def Obligations.FrameOfReadResponses : Prop :=
  ∀ (i : Instr) (s t : State), phaseOf i = some .reading → exec i s = .next t →
    t.acc = s.acc ∧ t.pos = s.pos ∧ t.obuf = s.obuf ∧ t.inbox = s.inbox ∧ t.params = s.params ∧
    output t.history = output s.history ∧
    (t.phase ≠ .decoding → t.grp = s.grp) ∧
    (t.phase ≠ .failed → t.cause = s.cause ∧ t.draws = s.draws) ∧
    (t.phase.terminal = false → t.exit = s.exit)

/-! ### Write responses -/

/-- 42_stream_loop.md R83: an accepted write appends `obuf` to `OUT` and goes back to `Reading`. -/
def Obligations.AcceptedWriteOutputsTheByte : Prop :=
  ∀ (s : State) (b : Byte), s.phase = .writing → s.obuf = some b →
    exec .wrOk s =
        .next { s with phase := .reading, history := s.history ++ [.write b (.wrote 1)] } ∧
      output (s.history ++ [.write b (.wrote 1)]) = output s.history ++ [b]

/-- 42_stream_loop.md R84: a write count of 0, or of 2 to 7 (saturated, R55), fails with WriteFault, and `OUT` is
unchanged. Exactly one diagnostic event is the spec's own decision D9, the terminal status as an event of the same step
log entry 13. -/
def Obligations.WrongWriteCountFails : Prop :=
  ∀ (s : State) (b : Byte) (n : BitVec 3), s.phase = .writing → s.obuf = some b →
    (∃ text, exec .wrZero s = .next (s.failedWith .writeFault [.write b (.wrote 0)] text)) ∧
    (2 ≤ n.toNat →
      ∃ text, exec (.wrOver n) s = .next (s.failedWith .writeFault [.write b (.wrote n.toNat)] text)) ∧
    (∀ (c : Cause) (m : Nat) (text : String), m ≠ 1 →
      output (s.failedWith c [.write b (.wrote m)] text).history = output s.history)

/-- 42_stream_loop.md R85: a write error fails with WriteFault, and `OUT` is unchanged. Exactly one diagnostic event is
the spec's own decision D9, the terminal status as an event of the same step log entry 13. -/
def Obligations.WriteErrorFails : Prop :=
  ∀ (s : State) (b : Byte), s.phase = .writing → s.obuf = some b →
    ∃ text, exec .wrErr s = .next (s.failedWith .writeFault [.write b .writeErr] text) ∧
      output (s.failedWith .writeFault [.write b .writeErr] text).history = output s.history

/-- Frame of the write responses (R82 to R85): the group, the accumulator, `obuf`, the host's script and the parameters
stay and no input is consumed; on the way back to `Reading` so do `cause` and `exit`. -/
def Obligations.FrameOfWriteResponses : Prop :=
  ∀ (i : Instr) (s t : State), phaseOf i = some .writing → exec i s = .next t →
    t.grp = s.grp ∧ t.acc = s.acc ∧ t.pos = s.pos ∧ t.obuf = s.obuf ∧ t.inbox = s.inbox ∧ t.params = s.params ∧
    inConsumed t.history = inConsumed s.history ∧
    (t.phase = .failed ∨
      t.phase = .reading ∧ t.cause = s.cause ∧ t.exit = s.exit ∧ t.draws = s.draws)

/-! ### Termination and failure -/

/-- 60_exceptions.md R99: the termination signal takes effect in every phase that is not terminal, in one step. `exit`
takes some value, `OUT` keeps its bytes, and a byte whose write waits may or may not be added; nothing else changes.
`Aborted` and its effects are the spec's own decision D13. That the request is recorded as unanswered, and that in `Writing`
with no value in `obuf` there is no write to record, are log entry 6; the terminal status as an event of the same step is
log entry 13. -/
def Obligations.TerminationAborts : Prop :=
  ∀ s : State, s.phase.terminal = false →
    ∃ n evs, exec .abort s =
        .next { s with
          phase := .aborted
          exit := some n
          history := s.history ++ evs ++ [.status .aborted s.cause (some n)]
          draws := s.draws + 1 } ∧
      (evs = [] ∧ (s.phase = .writing → s.obuf = none) ∨
        ∃ b taken, s.phase = .writing ∧ s.obuf = some b ∧ evs = [.write b (.unanswered taken)] ∧
          output evs = if taken then [b] else [])

/-- 60_exceptions.md R94 to R98: a step into `Failed` sets the cause that its phase and its input give and the exit
value `FAIL_EXIT(cause)`, which is not zero, and its last two events are one diagnostic with that cause and the terminal
status; a step to any other phase posts no diagnostic and writes no cause. Exactly one diagnostic event is the spec's own
decision D9, the terminal status as an event of the same step log entry 13. -/
def Obligations.FailureEntryIsTheSpecs : Prop :=
  ∀ (s t : State), step s = .next t →
    (t.phase = .failed →
      ∃ c text evs, t.cause = some c ∧ t.exit = some (s.params.failExit.of c) ∧
        (s.params.wf = true → t.exit ≠ some 0) ∧
        t.history = s.history ++ evs ++ [.diagnostic c text, .status .failed (some c) t.exit] ∧
        diagnostics evs = 0 ∧ output evs = [] ∧
        (c = .invalidSymbol ∧ s.phase = .decoding ∨
          (c = .truncatedInput ∨ c = .readFault) ∧ s.phase = .reading ∨
          c = .writeFault ∧ s.phase = .writing)) ∧
    (t.phase ≠ .failed → t.cause = s.cause ∧ diagnostics t.history = diagnostics s.history)

/-- 10_state.md R17: the phase changes only by the transitions of R77 to R86 and R99 (the spec's own decision D13), and
none leaves a terminal phase. A symbol decoded on its own, before the last position, leaves the phase as it is; that
there is such a step is log entry 10. -/
def Obligations.PhaseChangesOnlyByTheTransitions : Prop :=
  ∀ (s t : State), step s = .next t →
    s.phase = .decoding ∧ t.phase = .decoding ∧ s.pos ≠ none ∨
    (s.phase, t.phase) ∈
      [(Phase.reading, Phase.decoding), (.reading, .done), (.reading, .failed), (.reading, .aborted),
       (.decoding, .writing), (.decoding, .failed), (.decoding, .aborted),
       (.writing, .reading), (.writing, .failed), (.writing, .aborted)]

/-- 10_state.md R18, R20, R21, R22, 42_stream_loop.md R82, as rules of the whole machine: only a full read writes the
group buffer, and all of it; only the end of a successful decode writes `obuf`; only the entry to `Failed` writes
`cause`; only the entry to a terminal phase writes `exit`. -/
def Obligations.RegistersChangeOnlyWhereTheSpecSays : Prop :=
  ∀ (s t : State), step s = .next t →
    (t.grp = s.grp ∨ s.phase = .reading ∧ t.phase = .decoding ∧
      ∃ g rest, s.inbox = .read 0b0100#4 (Group.bytes g) :: rest ∧ t.grp = .full g) ∧
    (t.obuf = s.obuf ∨ s.phase = .decoding ∧ t.phase = .writing ∧ t.obuf ≠ none) ∧
    (t.cause = s.cause ∨ t.phase = .failed) ∧
    (t.exit = s.exit ∨ t.phase.terminal = true)

/-- 20_memory.md R35, 10_state.md R31: a step keeps the bytes already output; it adds at most the byte in `obuf`, in
`Writing`, and only on `Wrote(1)` or at a termination. -/
def Obligations.OutputGrowsOnlyByAcceptedWrites : Prop :=
  ∀ (s t : State), step s = .next t →
    s.history <+: t.history ∧
    (output t.history = output s.history ∨
      ∃ b, s.phase = .writing ∧ s.obuf = some b ∧ output t.history = output s.history ++ [b] ∧
        (t.phase = .reading ∧ (∃ rest, s.inbox = .write 0b0001#4 :: rest) ∨ t.phase = .aborted))

/-- 70_reset_and_hazards.md R112 (a), 20_memory.md R46: no step changes the alphabet or the exit values. -/
def Obligations.ParametersNeverChange : Prop :=
  ∀ (s t : State), Reaches s t → t.params = s.params

/-! ### Reset, status and requests -/

/-- 10_state.md R27, 70_reset_and_hazards.md R110: the values the spec gives for reset; the first request is
`InRead(4)`, and the block waits for it.
The wait is R89 (the spec's own decision D12). That a host has not acted at reset (an empty script) is the model's choice,
log entry 3, and that the wait is a named fault log entry 12. -/
def Obligations.ResetValues : Prop :=
  State.reset.phase = .reading ∧ State.reset.grp = ⟨none, none, none, none⟩ ∧ State.reset.acc = none ∧
  State.reset.obuf = none ∧ State.reset.cause = none ∧ State.reset.exit = none ∧ State.reset.history = [] ∧
  State.reset.request = some (.inRead 4) ∧ step State.reset = .fault .waitingForHost

/-- 10_state.md R16, R21, 60_exceptions.md R94: the codes of `phase` and `cause`. -/
def Obligations.PhaseAndCauseCodes : Prop :=
  [Phase.reading, .decoding, .writing, .done, .failed, .aborted].map Phase.code = [0, 1, 2, 3, 4, 5] ∧
  [none, some Cause.invalidSymbol, some .truncatedInput, some .readFault, some .writeFault].map causeCode
    = [0, 1, 2, 3, 4]

/-- 20_memory.md R34, R35, 42_stream_loop.md R77, R82, R88: the request each phase waits on. -/
def Obligations.RequestOfEachPhase : Prop :=
  ∀ s : State,
    (s.phase = .reading → s.request = some (.inRead 4)) ∧
    (∀ b, s.phase = .writing → s.obuf = some b → s.request = some (.outWrite b)) ∧
    (s.phase = .decoding ∨ s.phase.terminal = true → s.request = none)

/-! ### Invariants -/

/-- The invariants of 10_state.md R29 hold at the start of every run of a block with legal parameters, and of the block
as built. -/
def Obligations.StartMeetsTheInvariant : Prop :=
  (∀ (p : Params) (inbox : List HostInput), p.wf = true → (State.start p inbox).Inv) ∧ State.reset.Inv

/-- 10_state.md R29: every step keeps the state invariants.
That `Inv` has the accumulator idle follows D8; the symbol steps it leaves out are the model's own, log entry 10. -/
def Obligations.StepKeepsTheInvariant : Prop :=
  ∀ (s t : State), s.Inv → step s = .next t → t.Inv

/-- 20_memory.md R38 and R43, 10_state.md R31: every step, a symbol step too, keeps the order of the channel events:
each group that succeeded was read, decoded and written before the next was read. Of what `HistoryOk` fixes, exactly one
diagnostic event on a failure is the spec's own decision D9, `Aborted` and a write left unanswered at a termination D13 and
log entry 6, the terminal status as an event log entry 13, and the symbol steps log entry 10. -/
def Obligations.StepKeepsTheHistoryOrder : Prop :=
  ∀ (s t : State), s.HistoryOk → step s = .next t → t.HistoryOk

/-- 10_state.md R29, in the rule's own words: (a) to (e) hold in every reachable state. -/
def Obligations.ReachableStatesMeetTheStateInvariants : Prop :=
  ∀ s : State, Reachable s →
    (s.phase = .decoding → ∀ i, s.grp.entry i ≠ none) ∧
    (s.phase = .writing → s.obuf ≠ none) ∧
    (s.phase = .failed ↔ s.cause ≠ none) ∧
    (s.exit = none ↔ s.phase = .reading ∨ s.phase = .decoding ∨ s.phase = .writing) ∧
    (s.phase = .reading → inConsumed s.history = 4 * (output s.history).length)

/-- 10_state.md R30: at a clean end the input consumed is a multiple of 4, and the output is a quarter of it. -/
def Obligations.CleanEndOutputsEveryGroup : Prop :=
  ∀ s : State, Reachable s → s.phase = .done →
    inConsumed s.history % 4 = 0 ∧ (output s.history).length = inConsumed s.history / 4 ∧ s.exit = some 0

/-- 10_state.md R31: a failed run has output the decoded bytes of the groups before the failing step, in order, and
nothing else. The groups are those of the full reads, in order; the failing group, if the failure came after its read,
adds nothing. Exactly one diagnostic event is the spec's own decision D9, the terminal status as an event log entry 13. -/
def Obligations.FailedRunKeepsOnlyWholeGroups : Prop :=
  ∀ s : State, Reachable s → s.phase = .failed →
    ∃ (done : List (Group × Byte)) (before : List Event) (c : Cause) (text : String),
      (∀ p ∈ done, decodeGroup s.params.alphabet p.1 = .ok p.2) ∧
      s.history = groupEvents done ++ before ++ [.diagnostic c text, .status .failed s.cause s.exit] ∧
      s.cause = some c ∧ FailingEvents s.params.alphabet c before ∧
      output s.history = done.map Prod.snd

/-- 20_memory.md R36, 60_exceptions.md R100: at most one diagnostic event in a run, and one exactly when it has
failed. -/
def Obligations.AtMostOneDiagnosticPerRun : Prop :=
  ∀ s : State, Reachable s →
    diagnostics s.history ≤ 1 ∧ (diagnostics s.history = 1 ↔ s.phase = .failed)

/-! ### Whole runs -/

/-- 70_reset_and_hazards.md R119, 42_stream_loop.md R77, R80, R83: a group that succeeds takes exactly three steps, and
they lead back to `Reading`. -/
def Obligations.ThreeStepsPerGroup : Prop :=
  ∀ (s : State) (g : Group) (y : Byte) (rest : List HostInput), s.phase = .reading → s.Idle →
    s.inbox = .read 0b0100#4 g.bytes :: .write 0b0001#4 :: rest → decodeGroup s.params.alphabet g = .ok y →
    runFor 3 s = .next { s with
      grp := .full g
      obuf := some y
      history := s.history ++ [.read (.data g.bytes), .write y (.wrote 1)]
      inbox := rest }

/-- 70_reset_and_hazards.md R119: the block takes only finitely many steps on finitely many host actions, from every
state.
The script is log entry 3, and the symbol steps that the four covers log entry 10. -/
def Obligations.RunLengthIsBounded : Prop :=
  ∀ (s t : State) (k : Nat), runFor k s = .next t → k ≤ 2 * s.inbox.length + 4

/-- 42_stream_loop.md R91: the whole-stream function. Under the reference host a run on any input ends, with the output
of the legal groups before the first group that is not legal: `Done` if there is no more input, `InvalidSymbol` if such
a group comes, `TruncatedInput` if a fragment is left. -/
def Obligations.WholeStreamFunction : Prop :=
  ∀ (s : State) (bs : List Byte), s.phase = .reading → s.Idle → s.inbox = refHost bs →
    ∃ (done : List (Group × Byte)) (rest : List Byte) (t : State),
      bs = done.flatMap (fun p => p.1.bytes) ++ rest ∧
      (∀ p ∈ done, decodeGroup s.params.alphabet p.1 = .ok p.2) ∧
      Reaches s t ∧ output t.history = output s.history ++ done.map Prod.snd ∧
      (rest = [] ∧ t.phase = .done ∧ t.exit = some 0 ∨
        (∃ g more, rest = Group.bytes g ++ more ∧ (∃ b ∈ g.bytes, b ∉ s.params.alphabet.legal) ∧
          t.phase = .failed ∧ t.cause = some .invalidSymbol) ∨
        1 ≤ rest.length ∧ rest.length ≤ 3 ∧ t.phase = .failed ∧ t.cause = some .truncatedInput)

/-- 42_stream_loop.md R92: two runs with the same responses and the same alphabet give the same outcome, step by step,
but for the diagnostic text and the exit value of a failure; so they have the same `OUT`, `cause` and `phase`. -/
def Obligations.SameResponsesSameOutcome : Prop :=
  ∀ (s s' t : State) (k : Nat), s.closed = s'.closed → s.noAbort → runFor k s = .next t →
    ∃ t', runFor k s' = .next t' ∧ t.closed = t'.closed ∧
      output t.history = output t'.history ∧ t.cause = t'.cause ∧ t.phase = t'.phase

/-! ### Runs beside a host in time -/

/-- 70_reset_and_hazards.md R119 and R120: beside a host that answers every request (`HostAnswers`) and whose input has
finite length, every run ends: it comes to a terminal phase, and its state never changes again. -/
def Obligations.AnsweredRunOnFiniteInputEnds : Prop :=
  ∀ (h : HostPlan) (s : State), s.Inv → HostAnswers h s → FiniteInput h →
    ∃ n t, runWith h n s = .next t ∧ t.phase.terminal = true ∧ ∀ m, n ≤ m → runWith h m s = .next t

/-- 70_reset_and_hazards.md R119: a host that keeps sending full reads without end (of groups that decode, each write
accepted) makes an infinite run, though it answers every request. After any number of groups the block has output them
all and is back in `Reading`, and at no turn is it in a terminal phase. -/
def Obligations.EndlessFullReadsRunForEver : Prop :=
  ∀ (s : State) (gs : Nat → Group) (ys : Nat → Byte), s.phase = .reading → s.Idle → s.inbox = [] →
    (∀ k, decodeGroup s.params.alphabet (gs k) = .ok (ys k)) →
    HostAnswers (endlessHost gs) s ∧
    (∀ n, ∃ t, runWith (endlessHost gs) n s = .next t ∧ t.phase.terminal = false) ∧
    (∀ k, ∃ t, runWith (endlessHost gs) (3 * k) s = .next t ∧ t.phase = .reading ∧
      t.history = s.history ++ groupEvents ((List.range k).map fun i => (gs i, ys i)) ∧
      output t.history = output s.history ++ (List.range k).map ys)

/-- 70_reset_and_hazards.md R120, 42_stream_loop.md R89: from any turn on, a host that does nothing more is waited for,
for ever and with no timeout; such a host breaks the premise `HostAnswers`. That the wait wins in `Writing` with no value
in `obuf` is log entry 17. -/
def Obligations.SilentHostIsWaitedForEver : Prop :=
  ∀ (h : HostPlan) (s t : State) (n : Nat), runWith h n s = .next t →
    t.phase = .reading ∨ t.phase = .writing → t.inbox = [] → (∀ m, n ≤ m → h m = []) →
    (∀ m, n ≤ m → runWith h m s = .next t) ∧ (t.request ≠ none → ¬ HostAnswers h s)

/-- 70_reset_and_hazards.md R115, R116: a run beside a host in time shows no state that a script given in advance does
not show: but for the actions still to come, each of its states is one of a run of `step` alone. So what the statements
on reachable states say holds beside every host in time too. -/
def Obligations.RunsInTimeAreReachable : Prop :=
  ∀ (p : Params) (h : HostPlan) (n : Nat) (t : State), p.wf = true → runWith h n (.start p []) = .next t →
    Reachable { t with inbox := [] }
end

