-- ==== Sys2Proof/Laws/State.lean ====
section
/-! SUPPORT. One lemma per field for each update of State that the meanings share. -/

namespace Sys2Proof.Machine

variable (s : State)

/-! `State.log` -/

@[simp] theorem State.log_phase (e : Event) :
    (s.log e).phase = s.phase := rfl
@[simp] theorem State.log_grp (e : Event) :
    (s.log e).grp = s.grp := rfl
@[simp] theorem State.log_acc (e : Event) :
    (s.log e).acc = s.acc := rfl
@[simp] theorem State.log_pos (e : Event) :
    (s.log e).pos = s.pos := rfl
@[simp] theorem State.log_obuf (e : Event) :
    (s.log e).obuf = s.obuf := rfl
@[simp] theorem State.log_cause (e : Event) :
    (s.log e).cause = s.cause := rfl
@[simp] theorem State.log_exit (e : Event) :
    (s.log e).exit = s.exit := rfl
@[simp] theorem State.log_history (e : Event) :
    (s.log e).history = s.history ++ [e] := rfl
@[simp] theorem State.log_inbox (e : Event) :
    (s.log e).inbox = s.inbox := rfl
@[simp] theorem State.log_params (e : Event) :
    (s.log e).params = s.params := rfl
@[simp] theorem State.log_draws (e : Event) :
    (s.log e).draws = s.draws := rfl

/-! `State.logStatus` -/

@[simp] theorem State.logStatus_phase :
    (s.logStatus).phase = s.phase := rfl
@[simp] theorem State.logStatus_grp :
    (s.logStatus).grp = s.grp := rfl
@[simp] theorem State.logStatus_acc :
    (s.logStatus).acc = s.acc := rfl
@[simp] theorem State.logStatus_pos :
    (s.logStatus).pos = s.pos := rfl
@[simp] theorem State.logStatus_obuf :
    (s.logStatus).obuf = s.obuf := rfl
@[simp] theorem State.logStatus_cause :
    (s.logStatus).cause = s.cause := rfl
@[simp] theorem State.logStatus_exit :
    (s.logStatus).exit = s.exit := rfl
@[simp] theorem State.logStatus_history :
    (s.logStatus).history = s.history ++ [.status s.phase s.cause s.exit] := rfl
@[simp] theorem State.logStatus_inbox :
    (s.logStatus).inbox = s.inbox := rfl
@[simp] theorem State.logStatus_params :
    (s.logStatus).params = s.params := rfl
@[simp] theorem State.logStatus_draws :
    (s.logStatus).draws = s.draws := rfl

/-! `State.errEmit` -/

@[simp] theorem State.errEmit_phase (c : Cause) :
    (s.errEmit c).phase = s.phase := rfl
@[simp] theorem State.errEmit_grp (c : Cause) :
    (s.errEmit c).grp = s.grp := rfl
@[simp] theorem State.errEmit_acc (c : Cause) :
    (s.errEmit c).acc = s.acc := rfl
@[simp] theorem State.errEmit_pos (c : Cause) :
    (s.errEmit c).pos = s.pos := rfl
@[simp] theorem State.errEmit_obuf (c : Cause) :
    (s.errEmit c).obuf = s.obuf := rfl
@[simp] theorem State.errEmit_cause (c : Cause) :
    (s.errEmit c).cause = s.cause := rfl
@[simp] theorem State.errEmit_exit (c : Cause) :
    (s.errEmit c).exit = s.exit := rfl
@[simp] theorem State.errEmit_history (c : Cause) :
    (s.errEmit c).history = s.history ++ [.diagnostic c (Config.diagnosticText s.draws)] := rfl
@[simp] theorem State.errEmit_inbox (c : Cause) :
    (s.errEmit c).inbox = s.inbox := rfl
@[simp] theorem State.errEmit_params (c : Cause) :
    (s.errEmit c).params = s.params := rfl
@[simp] theorem State.errEmit_draws (c : Cause) :
    (s.errEmit c).draws = s.draws + 1 := rfl

/-! `State.raise` -/

@[simp] theorem State.raise_phase (c : Cause) :
    (s.raise c).phase = .failed := rfl
@[simp] theorem State.raise_grp (c : Cause) :
    (s.raise c).grp = s.grp := rfl
@[simp] theorem State.raise_acc (c : Cause) :
    (s.raise c).acc = s.acc := rfl
@[simp] theorem State.raise_pos (c : Cause) :
    (s.raise c).pos = s.pos := rfl
@[simp] theorem State.raise_obuf (c : Cause) :
    (s.raise c).obuf = s.obuf := rfl
@[simp] theorem State.raise_cause (c : Cause) :
    (s.raise c).cause = some c := rfl
@[simp] theorem State.raise_exit (c : Cause) :
    (s.raise c).exit = some (s.params.failExit.of c) := rfl
@[simp] theorem State.raise_history (c : Cause) :
    (s.raise c).history = s.history ++ [.diagnostic c (Config.diagnosticText s.draws)] ++
      [.status .failed (some c) (some (s.params.failExit.of c))] := rfl
@[simp] theorem State.raise_inbox (c : Cause) :
    (s.raise c).inbox = s.inbox := rfl
@[simp] theorem State.raise_params (c : Cause) :
    (s.raise c).params = s.params := rfl
@[simp] theorem State.raise_draws (c : Cause) :
    (s.raise c).draws = s.draws + 1 := rfl

/-! `State.discardAcc` -/

@[simp] theorem State.discardAcc_phase :
    (s.discardAcc).phase = s.phase := rfl
@[simp] theorem State.discardAcc_grp :
    (s.discardAcc).grp = s.grp := rfl
@[simp] theorem State.discardAcc_acc :
    (s.discardAcc).acc = none := rfl
@[simp] theorem State.discardAcc_pos :
    (s.discardAcc).pos = none := rfl
@[simp] theorem State.discardAcc_obuf :
    (s.discardAcc).obuf = s.obuf := rfl
@[simp] theorem State.discardAcc_cause :
    (s.discardAcc).cause = s.cause := rfl
@[simp] theorem State.discardAcc_exit :
    (s.discardAcc).exit = s.exit := rfl
@[simp] theorem State.discardAcc_history :
    (s.discardAcc).history = s.history := rfl
@[simp] theorem State.discardAcc_inbox :
    (s.discardAcc).inbox = s.inbox := rfl
@[simp] theorem State.discardAcc_params :
    (s.discardAcc).params = s.params := rfl
@[simp] theorem State.discardAcc_draws :
    (s.discardAcc).draws = s.draws := rfl

/-! `State.beginDecode` -/

@[simp] theorem State.beginDecode_phase :
    (s.beginDecode).phase = s.phase := rfl
@[simp] theorem State.beginDecode_grp :
    (s.beginDecode).grp = s.grp := rfl
@[simp] theorem State.beginDecode_acc :
    (s.beginDecode).acc = some 0x00#8 := rfl
@[simp] theorem State.beginDecode_pos :
    (s.beginDecode).pos = some 0 := rfl
@[simp] theorem State.beginDecode_obuf :
    (s.beginDecode).obuf = s.obuf := rfl
@[simp] theorem State.beginDecode_cause :
    (s.beginDecode).cause = s.cause := rfl
@[simp] theorem State.beginDecode_exit :
    (s.beginDecode).exit = s.exit := rfl
@[simp] theorem State.beginDecode_history :
    (s.beginDecode).history = s.history := rfl
@[simp] theorem State.beginDecode_inbox :
    (s.beginDecode).inbox = s.inbox := rfl
@[simp] theorem State.beginDecode_params :
    (s.beginDecode).params = s.params := rfl
@[simp] theorem State.beginDecode_draws :
    (s.beginDecode).draws = s.draws := rfl

/-! `State.receive` -/

@[simp] theorem State.receive_phase (acts : List HostInput) :
    (s.receive acts).phase = s.phase := rfl
@[simp] theorem State.receive_grp (acts : List HostInput) :
    (s.receive acts).grp = s.grp := rfl
@[simp] theorem State.receive_acc (acts : List HostInput) :
    (s.receive acts).acc = s.acc := rfl
@[simp] theorem State.receive_pos (acts : List HostInput) :
    (s.receive acts).pos = s.pos := rfl
@[simp] theorem State.receive_obuf (acts : List HostInput) :
    (s.receive acts).obuf = s.obuf := rfl
@[simp] theorem State.receive_cause (acts : List HostInput) :
    (s.receive acts).cause = s.cause := rfl
@[simp] theorem State.receive_exit (acts : List HostInput) :
    (s.receive acts).exit = s.exit := rfl
@[simp] theorem State.receive_history (acts : List HostInput) :
    (s.receive acts).history = s.history := rfl
@[simp] theorem State.receive_params (acts : List HostInput) :
    (s.receive acts).params = s.params := rfl
@[simp] theorem State.receive_draws (acts : List HostInput) :
    (s.receive acts).draws = s.draws := rfl
@[simp] theorem State.receive_inbox (acts : List HostInput) :
    (s.receive acts).inbox = s.inbox ++ acts := rfl

/-! `State.failedWith` -/

@[simp] theorem State.failedWith_phase (c : Cause) (evs : List Event) (text : String) :
    (s.failedWith c evs text).phase = .failed := rfl
@[simp] theorem State.failedWith_grp (c : Cause) (evs : List Event) (text : String) :
    (s.failedWith c evs text).grp = s.grp := rfl
@[simp] theorem State.failedWith_acc (c : Cause) (evs : List Event) (text : String) :
    (s.failedWith c evs text).acc = s.acc := rfl
@[simp] theorem State.failedWith_pos (c : Cause) (evs : List Event) (text : String) :
    (s.failedWith c evs text).pos = s.pos := rfl
@[simp] theorem State.failedWith_obuf (c : Cause) (evs : List Event) (text : String) :
    (s.failedWith c evs text).obuf = s.obuf := rfl
@[simp] theorem State.failedWith_cause (c : Cause) (evs : List Event) (text : String) :
    (s.failedWith c evs text).cause = some c := rfl
@[simp] theorem State.failedWith_exit (c : Cause) (evs : List Event) (text : String) :
    (s.failedWith c evs text).exit = some (s.params.failExit.of c) := rfl
@[simp] theorem State.failedWith_history (c : Cause) (evs : List Event) (text : String) :
    (s.failedWith c evs text).history = s.history ++ evs ++
      [.diagnostic c text, .status .failed (some c) (some (s.params.failExit.of c))] := rfl
@[simp] theorem State.failedWith_inbox (c : Cause) (evs : List Event) (text : String) :
    (s.failedWith c evs text).inbox = s.inbox := rfl
@[simp] theorem State.failedWith_params (c : Cause) (evs : List Event) (text : String) :
    (s.failedWith c evs text).params = s.params := rfl
@[simp] theorem State.failedWith_draws (c : Cause) (evs : List Event) (text : String) :
    (s.failedWith c evs text).draws = s.draws + 1 := rfl

end Sys2Proof.Machine
end

