-- ==== Sys2Proof/Laws/Codec.lean ====
section
/-! SUPPORT. What the codec, the group decoder and the word decoder can answer. -/

namespace Sys2Proof.Machine

/-- `Codec` answers a value or InvalidSymbol, and InvalidSymbol exactly on the bytes outside `LEGAL`. -/
theorem codec_cases (al : Alphabet) (b : Byte) :
    (∃ v, codec al b = .ok v ∧ b ∈ al.legal) ∨ (codec al b = .error .invalidSymbol ∧ b ∉ al.legal) := by
  unfold codec Alphabet.legal
  split_ifs with h0 h1 h2 h3 <;> simp_all

/-- The loop of `DecodeGroup` fails with InvalidSymbol only. -/
theorem decodeFrom_error (al : Alphabet) (c : Cause) :
    ∀ (bs : List Byte) (i : Nat) (acc : Byte), decodeFrom al i acc bs = .error c → c = .invalidSymbol := by
  intro bs
  induction bs with
  | nil => intro i acc h; simp [decodeFrom] at h
  | cons b rest ih =>
    intro i acc h
    obtain ⟨v, hv, -⟩ | ⟨he, -⟩ := codec_cases al b
    · rw [decodeFrom, hv] at h
      exact ih _ _ h
    · rw [decodeFrom, he] at h
      exact (Except.error.inj h).symm

theorem decodeGroup_error {al : Alphabet} {g : Group} {c : Cause} (h : decodeGroup al g = .error c) :
    c = .invalidSymbol :=
  decodeFrom_error al c _ _ _ h

/-- `DecodeGroup` on four legal symbols, written out. -/
theorem decodeGroup_ok {al : Alphabet} {g : Group} {v0 v1 v2 v3 : UInt2} (h0 : codec al g.s0 = .ok v0)
    (h1 : codec al g.s1 = .ok v1) (h2 : codec al g.s2 = .ok v2) (h3 : codec al g.s3 = .ok v3) :
    decodeGroup al g =
      .ok (accumulate (accumulate (accumulate (accumulate 0 0 v0) 1 v1) 2 v2) 3 v3) := by
  simp [decodeGroup, Group.bytes, decodeFrom, h0, h1, h2, h3]

@[simp] theorem group_full (g : Group) : (GroupBuffer.full g).group = some g := rfl

/-- The group buffer holds a group exactly when each entry holds that group's byte. -/
theorem group_eq_some {b : GroupBuffer} {g : Group} :
    b.group = some g ↔ b = GroupBuffer.full g := by
  obtain ⟨e0, e1, e2, e3⟩ := b
  obtain ⟨s0, s1, s2, s3⟩ := g
  cases e0 <;> cases e1 <;> cases e2 <;> cases e3 <;> simp [GroupBuffer.group, GroupBuffer.full]

/-- The entries of a full buffer are the group's bytes in arrival order (10_state.md R18). -/
theorem entry_full (g : Group) (i : Fin 4) : (GroupBuffer.full g).entry i = g.bytes[i.val]? := by
  fin_cases i <;> rfl

/-- The bits of a packed group: the first symbol's are the highest (30_encoding.md R49). -/
theorem pack_getLsbD (g : Group) (i : Nat) : g.pack.getLsbD i =
    if i < 8 then g.s3.getLsbD i else if i < 16 then g.s2.getLsbD (i - 8)
    else if i < 24 then g.s1.getLsbD (i - 16) else g.s0.getLsbD (i - 24) := by
  have h3 := BitVec.getLsbD_append (x := g.s0 ++ g.s1 ++ g.s2) (y := g.s3) (i := i)
  have h2 := BitVec.getLsbD_append (x := g.s0 ++ g.s1) (y := g.s2) (i := i - 8)
  have h1 := BitVec.getLsbD_append (x := g.s0) (y := g.s1) (i := i - 8 - 8)
  refine h3.trans ?_
  rw [h2, h1]
  split_ifs <;> first | rfl | omega

/-- Packing a group into a `GRP32` word loses nothing. -/
@[simp] theorem unpack_pack (g : Group) : Group.unpack g.pack = g := by
  obtain ⟨s0, s1, s2, s3⟩ := g
  simp only [Group.unpack, Group.mk.injEq]
  refine ⟨?_, ?_, ?_, ?_⟩ <;> ext i hi <;> simp [pack_getLsbD] <;> grind

/-- Every `GRP32` word is the packing of the group it holds. -/
@[simp] theorem pack_unpack (w : BitVec 32) : (Group.unpack w).pack = w := by
  apply BitVec.eq_of_getLsbD_eq
  intro i hi
  simp only [Group.unpack, pack_getLsbD, BitVec.getLsbD_extractLsb']
  grind

/-- Where a read word decodes to (30_encoding.md R54). -/
theorem decodeRead_ok {desc : Descriptor} {data : List Byte} {i : Instr} (h : decodeRead desc data = .ok i) :
    (∃ b0 b1 b2 b3, desc = 0b0100#4 ∧ data = [b0, b1, b2, b3] ∧ i = .rdFull b0 b1 b2 b3) ∨
    (∃ b0, desc = 0b0001#4 ∧ data = [b0] ∧ i = .rdShort1 b0) ∨
    (∃ b0 b1, desc = 0b0010#4 ∧ data = [b0, b1] ∧ i = .rdShort2 b0 b1) ∨
    (∃ b0 b1 b2, desc = 0b0011#4 ∧ data = [b0, b1, b2] ∧ i = .rdShort3 b0 b1 b2) ∨
    (desc = 0b0000#4 ∧ data = [] ∧ i = .rdEof) ∨
    (desc = 0b1000#4 ∧ data = [] ∧ i = .rdErr) := by
  unfold decodeRead at h
  split_ifs at h <;> (try split at h) <;> cases h <;> simp_all

/-- Where a write word decodes to (R55). -/
theorem decodeWrite_ok {desc : Descriptor} {i : Instr} (h : decodeWrite desc = .ok i) :
    (desc = 0b0001#4 ∧ i = .wrOk) ∨ (desc = 0b0000#4 ∧ i = .wrZero) ∨
    (∃ n : BitVec 3, 2 ≤ n.toNat ∧ desc = 0#1 ++ n ∧ i = .wrOver n) ∨ (desc = 0b1000#4 ∧ i = .wrErr) := by
  unfold decodeWrite at h
  have hn : ∀ d : BitVec 4, d ≠ 1#4 → d ≠ 0#4 → d.extractLsb' 3 1 = 0#1 →
      2 ≤ (d.extractLsb' 0 3).toNat ∧ d = 0#1 ++ d.extractLsb' 0 3 := by decide
  split_ifs at h with h1 h0 he h8 <;> cases h
  · exact .inl ⟨h1, rfl⟩
  · exact .inr (.inl ⟨h0, rfl⟩)
  · exact .inr (.inr (.inl ⟨_, (hn desc h1 h0 he).1, (hn desc h1 h0 he).2, rfl⟩))
  · exact .inr (.inr (.inr ⟨h8, rfl⟩))

end Sys2Proof.Machine
end

