-- ==== Sys2Proof/Laws/Config.lean ====
section
/-! SUPPORT. The parameters of the block as built are legal, and nothing else is known of them: every legal choice has
the same form (00_scope.md R9, R10). -/

namespace Sys2Proof.Machine

/-- The alphabet of any order of the bytes is injective. -/
theorem ofOrder_wf (σ : Equiv.Perm (BitVec 8)) : (Alphabet.ofOrder σ).wf = true := by
  simp [Alphabet.ofOrder, Alphabet.wf]

theorem ofLessOne_wf (f : Cause → Nat) : (FailExit.ofLessOne f).wf = true := by
  simp [FailExit.ofLessOne, FailExit.wf]

theorem config_params_wf : Config.params.wf = true := by
  simp [Config.params, Params.wf, ofOrder_wf, ofLessOne_wf]

/-- Every injective alphabet is that of some order of the bytes, so `Config.params` leaves none out. -/
theorem ofOrder_surjective (al : Alphabet) (h : al.wf = true) : ∃ σ, Alphabet.ofOrder σ = al := by
  obtain ⟨a, b, c, d⟩ := al
  simp only [Alphabet.wf, bne_iff_ne, Bool.and_eq_true] at h
  obtain ⟨⟨⟨⟨⟨hab, hac⟩, had⟩, hbc⟩, hbd⟩, hcd⟩ := h
  have hx : Function.Injective (![0, 1, 2, 3] : Fin 4 → BitVec 8) := by decide
  have hy : Function.Injective (![a, b, c, d] : Fin 4 → BitVec 8) := by
    intro i j hij
    fin_cases i <;> fin_cases j <;> simp_all
  obtain ⟨σ, hσ⟩ := Equiv.Perm.exists_extending_pair _ _ hx hy
  exact ⟨σ, by simpa [Alphabet.ofOrder] using ⟨hσ 0, hσ 1, hσ 2, hσ 3⟩⟩

/-- Every nonzero `FAIL_EXIT` is of the form `Config.params` has. -/
theorem ofLessOne_surjective (f : FailExit) (h : f.wf = true) : ∃ g, FailExit.ofLessOne g = f := by
  refine ⟨fun c => f.of c - 1, ?_⟩
  obtain ⟨a, b, c, d⟩ := f
  simp only [FailExit.wf, bne_iff_ne, Bool.and_eq_true] at h
  simp only [FailExit.ofLessOne, FailExit.of, FailExit.mk.injEq]
  omega

end Sys2Proof.Machine
end

