-- ==== Sys2Proof/Laws/History.lean ====
section
/-! SUPPORT. `IN_CONSUMED`, `OUT` and the count of diagnostics (10_state.md R26) over a growing history. -/

namespace Sys2Proof.Machine

@[simp] theorem inConsumed_nil : inConsumed [] = 0 := rfl
@[simp] theorem output_nil : output [] = [] := rfl
@[simp] theorem diagnostics_nil : diagnostics [] = 0 := rfl

@[simp] theorem inConsumed_append (h k : List Event) :
    inConsumed (h ++ k) = inConsumed h + inConsumed k := by
  simp [inConsumed]

@[simp] theorem output_append (h k : List Event) : output (h ++ k) = output h ++ output k := by
  simp [output]

@[simp] theorem diagnostics_append (h k : List Event) :
    diagnostics (h ++ k) = diagnostics h + diagnostics k := by
  simp [diagnostics]

@[simp] theorem inConsumed_cons (e : Event) (h : List Event) :
    inConsumed (e :: h) = e.consumed + inConsumed h := by
  simp [inConsumed]

@[simp] theorem output_cons (e : Event) (h : List Event) : output (e :: h) = e.output ++ output h := by
  simp [output]

@[simp] theorem consumed_read (r : ReadResponse) : (Event.read r).consumed = r.bytes.length := rfl
@[simp] theorem consumed_write (b : Byte) (r : WriteResponse) : (Event.write b r).consumed = 0 := rfl
@[simp] theorem consumed_diagnostic (c : Cause) (t : String) : (Event.diagnostic c t).consumed = 0 := rfl
@[simp] theorem consumed_status (p : Phase) (c : Option Cause) (e : Option Nat) :
    (Event.status p c e).consumed = 0 := rfl
@[simp] theorem bytes_data (bs : List Byte) : (ReadResponse.data bs).bytes = bs := rfl
@[simp] theorem bytes_readErr : ReadResponse.readErr.bytes = [] := rfl

@[simp] theorem output_read (r : ReadResponse) : (Event.read r).output = [] := rfl
@[simp] theorem output_write (b : Byte) (r : WriteResponse) :
    (Event.write b r).output = if r.took then [b] else [] := rfl
@[simp] theorem output_diagnostic (c : Cause) (t : String) : (Event.diagnostic c t).output = [] := rfl
@[simp] theorem output_status (p : Phase) (c : Option Cause) (e : Option Nat) :
    (Event.status p c e).output = [] := rfl
@[simp] theorem took_wrote (n : Nat) : (WriteResponse.wrote n).took = decide (n = 1) := rfl
@[simp] theorem took_writeErr : WriteResponse.writeErr.took = false := rfl
@[simp] theorem took_unanswered (b : Bool) : (WriteResponse.unanswered b).took = b := rfl

@[simp] theorem diagnostics_read (r : ReadResponse) (h : List Event) :
    diagnostics (.read r :: h) = diagnostics h := by simp [diagnostics]
@[simp] theorem diagnostics_write (b : Byte) (r : WriteResponse) (h : List Event) :
    diagnostics (.write b r :: h) = diagnostics h := by simp [diagnostics]
@[simp] theorem diagnostics_diagnostic (c : Cause) (t : String) (h : List Event) :
    diagnostics (.diagnostic c t :: h) = diagnostics h + 1 := by simp [diagnostics]
@[simp] theorem diagnostics_status (p : Phase) (c : Option Cause) (e : Option Nat) (h : List Event) :
    diagnostics (.status p c e :: h) = diagnostics h := by simp [diagnostics]

@[simp] theorem bytes_length (g : Group) : g.bytes.length = 4 := rfl

/-- The history of groups that succeeded consumes four bytes and outputs one for each, and posts no diagnostic. -/
theorem groupEvents_totals (done : List (Group × Byte)) :
    inConsumed (groupEvents done) = 4 * done.length ∧ output (groupEvents done) = done.map Prod.snd ∧
      diagnostics (groupEvents done) = 0 := by
  induction done with
  | nil => exact ⟨rfl, rfl, rfl⟩
  | cons p ps ih =>
    have h : groupEvents (p :: ps) =
        [.read (.data p.1.bytes), .write p.2 (.wrote 1)] ++ groupEvents ps := rfl
    rw [h]
    simp [ih.1, ih.2.1, ih.2.2]
    omega

theorem groupEvents_append (d e : List (Group × Byte)) :
    groupEvents (d ++ e) = groupEvents d ++ groupEvents e := by
  simp [groupEvents]

end Sys2Proof.Machine
end

