-- ==== Sys2Proof/Laws/Ops.lean ====
section
/-! SUPPORT. One lemma for each shared operation: everything it can answer. -/

namespace Sys2Proof.Machine

theorem inPhase_here {s : State} {p : Phase} (r : Result) (h : s.phase = p) (hp : p.terminal = false) :
    s.inPhase p r = r := by
  simp [State.inPhase, h, hp]

/-- An operation gives a next state only in its own phase. -/
theorem inPhase_next {s t : State} {p : Phase} {r : Result} (hp : p.terminal = false) :
    s.inPhase p r = .next t ↔ s.phase = p ∧ r = .next t := by
  unfold State.inPhase
  by_cases h : s.phase = p
  · simp [h, hp]
  · by_cases ht : s.phase.terminal = true <;> simp [h, ht]

theorem inPhase_elsewhere {s : State} {p : Phase} (r : Result) (h : s.phase ≠ p)
    (ht : s.phase.terminal = false) : s.inPhase p r = .refused (.notRequested s.phase) := by
  simp [State.inPhase, h, ht]

theorem inPhase_terminal {s : State} (p : Phase) (r : Result) (ht : s.phase.terminal = true) :
    s.inPhase p r = .fault .terminalPhase := by
  simp [State.inPhase, ht]

/-- The failure entry is the one of 60_exceptions.md R98. -/
theorem raise_eq (s : State) (c : Cause) :
    s.raise c = s.failedWith c [] (Config.diagnosticText s.draws) := by
  simp [State.raise, State.failedWith, State.errEmit, State.log, State.logStatus]

theorem readFails_eq (s : State) (r : ReadResponse) (c : Cause) :
    s.readFails r c = s.failedWith c [.read r] (Config.diagnosticText s.draws) := by
  simp [State.readFails, raise_eq, State.failedWith, State.log]

theorem raise_log_eq (s : State) (e : Event) (c : Cause) :
    (s.log e).raise c = s.failedWith c [e] (Config.diagnosticText s.draws) := by
  simp [raise_eq, State.failedWith, State.log]

theorem underway_some {s : State} {a : Byte} {i : Fin 4} :
    s.underway = some (a, i) ↔ s.acc = some a ∧ s.pos = some i := by
  unfold State.underway
  cases s.acc <;> cases s.pos <;> simp

theorem underway_none {s : State} : s.underway = none ↔ s.acc = none ∨ s.pos = none := by
  unfold State.underway
  cases s.acc <;> cases s.pos <;> simp

/-- Where the accumulator is idle, no decode is under way. -/
theorem State.Idle.underway {s : State} (h : s.Idle) : s.underway = none := underway_none.2 (.inl h.1)

/-- A symbol before the last position leads to the next one, and the last one to the decoded byte. -/
theorem contribute_eq (s : State) (v : UInt2) (a : Byte) (i : Fin 4) : s.contribute v a i =
    if i = 3 then { s with acc := none, pos := none, obuf := some (accumulate a i v), phase := .writing }
    else { s with acc := some (accumulate a i v), pos := some (i + 1) } := by
  unfold State.contribute State.decoded State.discardAcc
  rfl

/-- Everything a symbol can do: its part of the decode under way, or of the one it starts. -/
theorem decodeSymbol_cases (s : State) (v : UInt2) : ∃ a i, s.decodeSymbol v = s.contribute v a i ∧
    (s.underway = some (a, i) ∨ s.underway = none ∧ a = 0x00#8 ∧ i = 0) := by
  unfold State.decodeSymbol
  cases s.underway with
  | some ai => exact ⟨ai.1, ai.2, rfl, .inl rfl⟩
  | none => exact ⟨_, _, rfl, .inr ⟨rfl, rfl, rfl⟩⟩

/-- A symbol goes on with the decode under way. -/
theorem decodeSymbol_underway {s : State} {v : UInt2} {a : Byte} {i : Fin 4} (h : s.underway = some (a, i)) :
    s.decodeSymbol v = s.contribute v a i := by
  simp [State.decodeSymbol, h]

/-- A symbol starts a decode where none is under way. -/
theorem decodeSymbol_starts {s : State} {v : UInt2} (h : s.underway = none) :
    s.decodeSymbol v = { s with acc := some (accumulate 0x00#8 0 v), pos := some 1 } := by
  simp [State.decodeSymbol, h, contribute_eq]

/-- A write response gives a next state only when `obuf` holds the byte the request carried. -/
theorem writeAnswered_next {s t : State} {r : WriteResponse} {k : State → State} :
    s.writeAnswered r k = .next t ↔ ∃ b, s.obuf = some b ∧ t = k (s.log (.write b r)) := by
  unfold State.writeAnswered
  cases s.obuf <;> simp [eq_comm]

/-- A termination leaves the state as it is but for the event of a write that waits. -/
theorem abandonWrite_eq (s : State) : ∃ evs, s.abandonWrite = { s with history := s.history ++ evs } ∧
    (evs = [] ∧ (s.phase = .writing → s.obuf = none) ∨ ∃ b taken, s.phase = .writing ∧ s.obuf = some b ∧
      evs = [.write b (.unanswered taken)]) := by
  unfold State.abandonWrite
  split
  · rename_i b hp hb
    exact ⟨_, rfl, .inr ⟨b, _, hp, hb, rfl⟩⟩
  · rename_i h
    refine ⟨[], by simp, .inl ⟨rfl, fun hp => ?_⟩⟩
    cases hb : s.obuf with
    | none => rfl
    | some b => exact absurd hb (h b hp)

end Sys2Proof.Machine
end

