-- ==== Sys2Proof/Laws/PerInstr.lean ====
section
/-! SUPPORT. The per-instruction family `WordOf`: an operation that a word decodes to is well-formed, and that word is
the operation's encoding, so that no operation has a second word (30_encoding.md R56, R60). -/

namespace Sys2Proof.Laws.WordOf

open Sys2Proof Sys2Proof.Machine

/-- The one word of `i`. -/
def Statement (i : Instr) : Prop :=
  ∀ (al : Alphabet) (c : Code), decode al c = .ok i → i.wf al = true ∧ encode i = c

/-- A symbol word decodes to a well-formed symbol operation that encodes back to it. -/
theorem of_sym8 (al : Alphabet) (b : Byte) :
    (decodeSym al b).wf al = true ∧ encode (decodeSym al b) = .sym8 b := by
  unfold decodeSym
  split_ifs <;> simp_all [Instr.wf, encode, Alphabet.legal]

/-- Every word that decodes is the encoding of a well-formed operation. -/
theorem of_decode (i : Instr) : Statement i := by
  intro al c h
  cases c with
  | sym8 b =>
    obtain rfl : decodeSym al b = i := Except.ok.inj h
    exact of_sym8 al b
  | grp32 w =>
    obtain rfl := Except.ok.inj h
    exact ⟨rfl, congrArg Code.grp32 (pack_unpack w)⟩
  | rdrsp desc data =>
    obtain ⟨_, _, _, _, rfl, rfl, rfl⟩ | ⟨_, rfl, rfl, rfl⟩ | ⟨_, _, rfl, rfl, rfl⟩ | ⟨_, _, _, rfl, rfl, rfl⟩ |
      ⟨rfl, rfl, rfl⟩ | ⟨rfl, rfl, rfl⟩ := decodeRead_ok h <;> exact ⟨rfl, rfl⟩
  | wrrsp desc =>
    obtain ⟨rfl, rfl⟩ | ⟨rfl, rfl⟩ | ⟨n, hn, rfl, rfl⟩ | ⟨rfl, rfl⟩ := decodeWrite_ok h
    · exact ⟨rfl, rfl⟩
    · exact ⟨rfl, rfl⟩
    · exact ⟨by simpa [Instr.wf] using hn, rfl⟩
    · exact ⟨rfl, rfl⟩
  | signal =>
    obtain rfl := Except.ok.inj h
    exact ⟨rfl, rfl⟩

theorem symV0 (sym : Byte) : Statement (.symV0 sym) := of_decode _
theorem symV1 (sym : Byte) : Statement (.symV1 sym) := of_decode _
theorem symV2 (sym : Byte) : Statement (.symV2 sym) := of_decode _
theorem symV3 (sym : Byte) : Statement (.symV3 sym) := of_decode _
theorem symInvalid (sym : Byte) : Statement (.symInvalid sym) := of_decode _
theorem decodeGroup (s0 s1 s2 s3 : Byte) : Statement (.decodeGroup s0 s1 s2 s3) := of_decode _
theorem rdFull (b0 b1 b2 b3 : Byte) : Statement (.rdFull b0 b1 b2 b3) := of_decode _
theorem rdShort1 (b0 : Byte) : Statement (.rdShort1 b0) := of_decode _
theorem rdShort2 (b0 b1 : Byte) : Statement (.rdShort2 b0 b1) := of_decode _
theorem rdShort3 (b0 b1 b2 : Byte) : Statement (.rdShort3 b0 b1 b2) := of_decode _
theorem rdEof : Statement .rdEof := of_decode _
theorem rdErr : Statement .rdErr := of_decode _
theorem wrOk : Statement .wrOk := of_decode _
theorem wrZero : Statement .wrZero := of_decode _
theorem wrOver (n : BitVec 3) : Statement (.wrOver n) := of_decode _
theorem wrErr : Statement .wrErr := of_decode _
theorem abort : Statement .abort := of_decode _

end Sys2Proof.Laws.WordOf
end

