-- ==== Sys2Proof/Laws/Step.lean ====
section
/-! SUPPORT. What a step can do, said once: `Transition` lists the cases of 42_stream_loop.md R90 and 60_exceptions.md
R99, and `step_transition` says that a step answers by one of them. -/

namespace Sys2Proof.Machine

/-- The transitions of the block, each with the input it takes in. `u` is the state less that input. -/
inductive Transition (s : State) : State → Prop where
  /-- `RD_FULL` (R77). -/
  | fullRead (g : Group) (rest : List HostInput) (hp : s.phase = .reading)
      (hi : s.inbox = .read 0b0100#4 g.bytes :: rest) :
      Transition s { s with
        inbox := rest, grp := .full g, phase := .decoding
        history := s.history ++ [.read (.data g.bytes)] }
  /-- `RD_SHORT1` to `RD_SHORT3` (R78). -/
  | shortRead (bs : List Byte) (rest : List HostInput) (text : String) (hp : s.phase = .reading)
      (hi : s.inbox = .read (BitVec.ofNat 4 bs.length) bs :: rest) (h1 : 1 ≤ bs.length) (h3 : bs.length ≤ 3)
      (ht : text = Config.diagnosticText s.draws) :
      Transition s ({ s with inbox := rest }.failedWith .truncatedInput [.read (.data bs)] text)
  /-- `RD_EOF` (R86). -/
  | endOfStream (rest : List HostInput) (hp : s.phase = .reading) (hi : s.inbox = .read 0b0000#4 [] :: rest) :
      Transition s { s with
        inbox := rest, exit := some 0, phase := .done
        history := s.history ++ [.read (.data []), .status .done s.cause (some 0)] }
  /-- `RD_ERR` (R81). -/
  | readError (rest : List HostInput) (text : String) (hp : s.phase = .reading)
      (hi : s.inbox = .read 0b1000#4 [] :: rest) (ht : text = Config.diagnosticText s.draws) :
      Transition s ({ s with inbox := rest }.failedWith .readFault [.read .readErr] text)
  /-- A legal symbol of a group that is being decoded symbol by symbol (41_group_decoder.md R68). -/
  | symbol (i : Fin 4) (a sym : Byte) (v : UInt2) (hp : s.phase = .decoding) (hn : s.noEarlyAbort)
      (hpos : s.pos = some i) (hacc : s.acc = some a) (he : s.grp.entry i = some sym)
      (hc : codec s.params.alphabet sym = .ok v) :
      Transition s (if i = 3 then
          { s with acc := none, pos := none, obuf := some (accumulate a i v), phase := .writing }
        else { s with acc := some (accumulate a i v), pos := some (i + 1) })
  /-- An illegal symbol of such a group (40_codec.md R66). -/
  | badSymbol (i : Fin 4) (a sym : Byte) (text : String) (hp : s.phase = .decoding) (hn : s.noEarlyAbort)
      (hpos : s.pos = some i) (hacc : s.acc = some a) (he : s.grp.entry i = some sym)
      (hc : codec s.params.alphabet sym = .error .invalidSymbol) (ht : text = Config.diagnosticText s.draws) :
      Transition s ({ s with acc := none, pos := none }.failedWith .invalidSymbol [] text)
  /-- `DECODE_GROUP`, success (R80). -/
  | group (g : Group) (y : Byte) (hp : s.phase = .decoding) (hn : s.noEarlyAbort) (hu : s.underway = none)
      (hg : s.grp.group = some g) (hd : decodeGroup s.params.alphabet g = .ok y) :
      Transition s { s with acc := none, pos := none, obuf := some y, phase := .writing }
  /-- `DECODE_GROUP`, failure (R79). -/
  | badGroup (g : Group) (text : String) (hp : s.phase = .decoding) (hn : s.noEarlyAbort) (hu : s.underway = none)
      (hg : s.grp.group = some g) (hd : decodeGroup s.params.alphabet g = .error .invalidSymbol)
      (ht : text = Config.diagnosticText s.draws) :
      Transition s ({ s with acc := none, pos := none }.failedWith .invalidSymbol [] text)
  /-- `WR_OK` (R83). -/
  | accepted (b : Byte) (rest : List HostInput) (hp : s.phase = .writing) (hb : s.obuf = some b)
      (hi : s.inbox = .write 0b0001#4 :: rest) :
      Transition s { s with
        inbox := rest, phase := .reading, history := s.history ++ [.write b (.wrote 1)] }
  /-- `WR_ZERO`, `WR_OVER` (R84) and `WR_ERR` (R85). -/
  | rejected (b : Byte) (r : WriteResponse) (desc : Descriptor) (rest : List HostInput) (text : String)
      (hp : s.phase = .writing) (hb : s.obuf = some b) (hi : s.inbox = .write desc :: rest)
      (hr : r = .writeErr ∨ ∃ n, n ≠ 1 ∧ r = .wrote n) (ht : text = Config.diagnosticText s.draws) :
      Transition s ({ s with inbox := rest }.failedWith .writeFault [.write b r] text)
  /-- `ABORT` (60_exceptions.md R99). -/
  | aborted (early : Bool) (rest : List HostInput) (evs : List Event) (n : Nat)
      (hp : s.phase.terminal = false) (hi : s.inbox = .abort early :: rest)
      (he : evs = [] ∧ (s.phase = .writing → s.obuf = none) ∨ ∃ b taken, s.phase = .writing ∧ s.obuf = some b ∧
        evs = [.write b (.unanswered taken)]) :
      Transition s { s with
        inbox := rest, phase := .aborted, exit := some n
        history := s.history ++ evs ++ [.status .aborted s.cause (some n)], draws := s.draws + 1 }

/-! Fetching. -/

theorem fetch_host {s : State} (hp : s.phase = .reading ∨ s.phase = .writing) : s.fetch = s.fetchHost := by
  rcases hp with hp | hp <;> simp [State.fetch, hp]

theorem fetch_early {s : State} {rest : List HostInput} (hp : s.phase = .decoding)
    (hi : s.inbox = .abort true :: rest) : s.fetch = .word .signal { s with inbox := rest } := by
  simp [State.fetch, hp, hi, State.fetchHost, HostInput.code]

theorem fetch_group {s : State} (hp : s.phase = .decoding) (hn : s.noEarlyAbort) :
    s.fetch = s.fetchGroup := by
  unfold State.fetch
  rw [hp]
  simp only
  split
  · rename_i rest h
    exact absurd h (hn rest)
  · rfl

theorem fetch_terminal {s : State} (hp : s.phase.terminal = true) : s.fetch = .stuck .terminalPhase := by
  cases h : s.phase <;> simp_all [State.fetch, Phase.terminal]

/-- The host's termination comes before the internal step, or it does not. -/
theorem early_or_not (s : State) : (∃ rest, s.inbox = .abort true :: rest) ∨ s.noEarlyAbort := by
  by_cases h : ∃ rest, s.inbox = .abort true :: rest
  · exact .inl h
  · exact .inr fun rest hr => h ⟨rest, hr⟩

/-! Stepping. -/

theorem step_word {s t : State} {c : Code} (h : s.fetch = .word c t) : step s = runWord c t := by
  simp [step, h]

theorem step_stuck {s : State} {f : Fault} (h : s.fetch = .stuck f) : step s = .fault f := by
  simp [step, h]

theorem runWord_ok {c : Code} {s : State} {i : Instr} (h : decode s.params.alphabet c = .ok i) :
    runWord c s = exec i s := by
  simp [runWord, h]

theorem step_host {s : State} {h : HostInput} {rest : List HostInput}
    (hp : s.phase = .reading ∨ s.phase = .writing) (hi : s.inbox = h :: rest) :
    step s = runWord h.code { s with inbox := rest } :=
  step_word (by rw [fetch_host hp, State.fetchHost, hi])

theorem step_decode_group {s : State} {g : Group} (hp : s.phase = .decoding) (hn : s.noEarlyAbort)
    (hu : s.underway = none) (hg : s.grp.group = some g) :
    step s = exec (.decodeGroup g.s0 g.s1 g.s2 g.s3) s := by
  rw [step_word (c := .grp32 g.pack) (t := s) (by rw [fetch_group hp hn, State.fetchGroup, hu]; simp [hg])]
  exact runWord_ok (by simp [decode])

theorem step_decode_symbol {s : State} {a : Byte} {i : Fin 4} {sym : Byte} (hp : s.phase = .decoding)
    (hn : s.noEarlyAbort) (hu : s.underway = some (a, i)) (he : s.grp.entry i = some sym) :
    step s = exec (decodeSym s.params.alphabet sym) s := by
  rw [step_word (c := .sym8 sym) (t := s) (by rw [fetch_group hp hn, State.fetchGroup, hu]; simp [he])]
  exact runWord_ok rfl

/-- The symbol decoder gives the operation whose meaning uses the codec's answer (30_encoding.md R52). -/
theorem exec_decodeSym (al : Alphabet) (sym : Byte) (s : State) : exec (decodeSym al sym) s =
    s.inPhase .decoding (match codec al sym with
      | .ok v => .next (s.decodeSymbol v)
      | .error c => .next (s.decoded (.error c))) := by
  unfold decodeSym codec
  split_ifs <;> rfl

/-- Every answer of a step is one of the transitions. -/
theorem step_transition {s t : State} (h : step s = .next t) : Transition s t := by
  have hterm : s.phase.terminal = false := by
    by_contra hc
    rw [step_stuck (fetch_terminal (by simpa using hc))] at h
    cases h
  have habort : ∀ (early : Bool) (rest : List HostInput), s.inbox = .abort early :: rest →
      exec .abort { s with inbox := rest } = .next t → Transition s t := by
    intro early rest hi he
    simp only [exec, execAbort, hterm, Bool.false_eq_true, if_false] at he
    obtain ⟨evs, hev, hcase⟩ := abandonWrite_eq { s with inbox := rest }
    rw [hev] at he
    cases he
    exact .aborted early rest evs _ hterm hi hcase
  by_cases hd : s.phase = .decoding
  · obtain ⟨rest, hi⟩ | hn := early_or_not s
    · rw [step_word (fetch_early hd hi), runWord_ok (i := .abort) rfl] at h
      exact habort _ _ hi h
    · cases hu : s.underway with
      | some ai =>
        obtain ⟨a, i⟩ := ai
        cases he : s.grp.entry i with
        | none => rw [step_stuck (f := .readUnwritten .grp) (by
            rw [fetch_group hd hn, State.fetchGroup, hu]; simp [he])] at h; cases h
        | some sym =>
          obtain ⟨hacc, hpos⟩ := underway_some.1 hu
          rw [step_decode_symbol hd hn hu he, exec_decodeSym, inPhase_here _ hd rfl] at h
          obtain ⟨v, hv, -⟩ | ⟨hv, -⟩ := codec_cases s.params.alphabet sym
          · rw [hv] at h
            simp only [decodeSymbol_underway hu, contribute_eq] at h
            cases h
            exact .symbol i a sym v hd hn hpos hacc he hv
          · rw [hv] at h
            simp only [State.decoded, raise_eq] at h
            cases h
            exact .badSymbol i a sym _ hd hn hpos hacc he hv rfl
      | none =>
        cases hg : s.grp.group with
        | none => rw [step_stuck (f := .readUnwritten .grp) (by
            rw [fetch_group hd hn, State.fetchGroup, hu]; simp [hg])] at h; cases h
        | some g =>
          rw [step_decode_group hd hn hu hg, exec, execDecodeGroup, inPhase_here _ hd rfl] at h
          cases hdec : decodeGroup s.params.alphabet g with
          | ok y =>
            rw [hdec] at h
            cases h
            exact .group g y hd hn hu hg hdec
          | error c =>
            obtain rfl := decodeGroup_error hdec
            rw [hdec] at h
            simp only [State.decoded, raise_eq] at h
            cases h
            exact .badGroup g _ hd hn hu hg hdec rfl
  · have hp : s.phase = .reading ∨ s.phase = .writing := by
      cases hph : s.phase <;> simp_all [Phase.terminal]
    cases hi : s.inbox with
    | nil => rw [step_stuck (f := .waitingForHost) (by
        rw [fetch_host hp, State.fetchHost, hi])] at h; cases h
    | cons a rest =>
      rw [step_host hp hi] at h
      cases a with
      | abort early =>
        rw [HostInput.code, runWord_ok (i := .abort) rfl] at h
        exact habort _ _ hi h
      | read desc data =>
        unfold runWord at h
        cases hdec : decode s.params.alphabet (.rdrsp desc data) with
        | error e => simp [HostInput.code, hdec] at h
        | ok i =>
          simp only [HostInput.code, hdec] at h
          obtain ⟨b0, b1, b2, b3, rfl, rfl, rfl⟩ | ⟨b0, rfl, rfl, rfl⟩ | ⟨b0, b1, rfl, rfl, rfl⟩ |
            ⟨b0, b1, b2, rfl, rfl, rfl⟩ | ⟨rfl, rfl, rfl⟩ | ⟨rfl, rfl, rfl⟩ := decodeRead_ok hdec
          all_goals
            obtain ⟨hph, ht⟩ := (inPhase_next (p := .reading) rfl).1 h
            simp only [readFails_eq] at ht
            cases ht
          · exact .fullRead ⟨b0, b1, b2, b3⟩ rest hph hi
          · exact .shortRead [b0] rest _ hph hi (by simp) (by simp) rfl
          · exact .shortRead [b0, b1] rest _ hph hi (by simp) (by simp) rfl
          · exact .shortRead [b0, b1, b2] rest _ hph hi (by simp) (by simp) rfl
          · have := Transition.endOfStream (s := s) rest hph hi
            simpa [State.logStatus, State.log] using this
          · exact .readError rest _ hph hi rfl
      | write desc =>
        unfold runWord at h
        cases hdec : decode s.params.alphabet (.wrrsp desc) with
        | error e => simp [HostInput.code, hdec] at h
        | ok i =>
          simp only [HostInput.code, hdec] at h
          obtain ⟨rfl, rfl⟩ | ⟨rfl, rfl⟩ | ⟨n, hn, rfl, rfl⟩ | ⟨rfl, rfl⟩ := decodeWrite_ok hdec
          all_goals
            obtain ⟨hph, ht⟩ := (inPhase_next (p := .writing) rfl).1 h
            obtain ⟨b, hb, rfl⟩ := writeAnswered_next.1 ht
          · exact .accepted b rest hph hb hi
          all_goals rw [raise_log_eq]
          · exact .rejected b _ _ rest _ hph hb hi (.inr ⟨0, by decide, rfl⟩) rfl
          · exact .rejected b _ _ rest _ hph hb hi (.inr ⟨n.toNat, by omega, rfl⟩) rfl
          · exact .rejected b _ _ rest _ hph hb hi (.inl rfl) rfl

end Sys2Proof.Machine
end

