-- ==== Sys2Proof/Laws/Runs.lean ====
section
/-! SUPPORT. Runs: how steps compose, the induction over a run, once, and the same for turns beside a host in time. -/

namespace Sys2Proof.Machine

theorem runFor_succ {s t u : State} {k : Nat} (h : step s = .next t) : runFor (k + 1) s = .next u ↔ runFor k t = .next u := by
  simp [runFor, h]

/-- A run of one step or more begins with a step. -/
theorem runFor_succ_next {s u : State} {k : Nat} (h : runFor (k + 1) s = .next u) :
    ∃ t, step s = .next t ∧ runFor k t = .next u := by
  rw [runFor] at h
  cases hs : step s with
  | next t => rw [hs] at h; exact ⟨t, rfl, h⟩
  | fault f => rw [hs] at h; cases h
  | refused r => rw [hs] at h; cases h

/-- Runs compose. -/
theorem runFor_add {j k : Nat} {s t u : State} (hj : runFor j s = .next t) (hk : runFor k t = .next u) :
    runFor (j + k) s = .next u := by
  induction j generalizing s with
  | zero => cases hj; simpa using hk
  | succ j ih =>
    obtain ⟨v, hs, hv⟩ := runFor_succ_next hj
    rw [show j + 1 + k = (j + k) + 1 by omega, runFor_succ hs]
    exact ih hv

theorem reaches_refl (s : State) : Reaches s s := ⟨0, rfl⟩

theorem reaches_step {s t : State} (h : step s = .next t) : Reaches s t := ⟨1, by simp [runFor, h]⟩

theorem reaches_trans {s t u : State} : Reaches s t → Reaches t u → Reaches s u
  | ⟨_, hj⟩, ⟨_, hk⟩ => ⟨_, runFor_add hj hk⟩

/-- What every step keeps, every run keeps. -/
theorem reaches_keeps {P : State → Prop} (hstep : ∀ s t, P s → step s = .next t → P t) {s t : State}
    (h : Reaches s t) (hs : P s) : P t := by
  obtain ⟨k, hk⟩ := h
  induction k generalizing s with
  | zero => cases hk; exact hs
  | succ k ih =>
    obtain ⟨u, hu, hr⟩ := runFor_succ_next hk
    exact ih (hstep s u hs hu) hr

/-! Turns beside a host in time. -/

@[simp] theorem State.receive_nil (s : State) : s.receive [] = s := by
  simp [State.receive]

@[simp] theorem State.receive_request (s : State) (acts : List HostInput) : (s.receive acts).request = s.request := rfl

/-- What a turn can do: the step the actions allow, or nothing, where the block waits or the run is over. -/
theorem hostTurn_next {acts : List HostInput} {s t : State} : hostTurn acts s = .next t ↔
    step (s.receive acts) = .next t ∨
      t = s ∧ (step (s.receive acts) = .fault .waitingForHost ∨ step (s.receive acts) = .fault .terminalPhase) := by
  unfold hostTurn
  cases step (s.receive acts) with
  | next u => simp
  | fault f => by_cases hf : f = .waitingForHost ∨ f = .terminalPhase <;> simp [hf, eq_comm]
  | refused r => simp

/-- A run of one turn or more ends with a turn. -/
theorem runWith_succ {h : HostPlan} {n : Nat} {s u : State} :
    runWith h (n + 1) s = .next u ↔ ∃ t, runWith h n s = .next t ∧ hostTurn (h n) t = .next u := by
  rw [runWith]
  cases runWith h n s <;> simp

/-- An earlier turn of a run has a state too. -/
theorem runWith_before {h : HostPlan} {n m : Nat} {s u : State} (hnm : n ≤ m) (hm : runWith h m s = .next u) :
    ∃ t, runWith h n s = .next t := by
  induction m generalizing u with
  | zero => exact ⟨u, by rwa [Nat.le_zero.1 hnm]⟩
  | succ m ih =>
    rcases Nat.lt_or_eq_of_le hnm with hlt | rfl
    · obtain ⟨t, ht, -⟩ := runWith_succ.1 hm
      exact ih (by omega) ht
    · exact ⟨u, hm⟩

/-- In a terminal phase a turn changes nothing. -/
theorem hostTurn_terminal {s : State} (acts : List HostInput) (ht : s.phase.terminal = true) :
    hostTurn acts s = .next s :=
  hostTurn_next.2 (.inr ⟨rfl, .inr (step_stuck (fetch_terminal ht))⟩)

/-- A turn in which the host does nothing leaves a block that waits as it is. -/
theorem hostTurn_silent {s : State} (hp : s.phase = .reading ∨ s.phase = .writing) (hi : s.inbox = []) :
    hostTurn [] s = .next s := by
  refine hostTurn_next.2 (.inr ⟨rfl, .inl ?_⟩)
  rw [State.receive_nil]
  exact step_stuck (by rw [fetch_host hp, State.fetchHost, hi])

/-- Once a run is over it stays so. -/
theorem runWith_terminal {h : HostPlan} {n m : Nat} {s t : State} (hn : runWith h n s = .next t)
    (ht : t.phase.terminal = true) (hnm : n ≤ m) : runWith h m s = .next t := by
  induction m, hnm using Nat.le_induction with
  | base => exact hn
  | succ m _ ih => exact runWith_succ.2 ⟨t, ih, hostTurn_terminal _ ht⟩

/-- What every turn keeps, a run beside a host keeps. -/
theorem runWith_keeps {P : State → Prop} {h : HostPlan} (hturn : ∀ n s t, P s → hostTurn (h n) s = .next t → P t)
    {n : Nat} {s t : State} (hn : runWith h n s = .next t) (hs : P s) : P t := by
  induction n generalizing t with
  | zero => cases hn; exact hs
  | succ n ih =>
    obtain ⟨u, hu, ht⟩ := runWith_succ.1 hn
    exact hturn n u t (ih hu) ht

end Sys2Proof.Machine
end

