-- ==== Sys2Proof/Tests/Slice0.lean ====
section
/-! SUPPORT. Tests: the words of the spec's encodings, the spec's own vectors (95_test_vectors.md), and a witness for the
hypotheses of each statement. Expected values are the spec's. The alphabet is the test instance of 92_eei_decisions.md
D19, which is NOT the hardware's. -/

namespace Sys2Proof.Tests

open Sys2Proof Sys2Proof.Machine

/-- D19: A = 0x41, B = 0x42, C = 0x43, D = 0x44. -/
def abcd : Alphabet := ⟨0x41#8, 0x42#8, 0x43#8, 0x44#8⟩

/-- Test parameters: D19, and some nonzero exit values. -/
def params : Params := ⟨abcd, ⟨11, 12, 13, 14⟩⟩

/-- Reading, with a host that will act as `inbox` says. -/
def reading (inbox : List HostInput) : State := .start params inbox

/-- A group in hand. -/
def decoding (g : Group) (inbox : List HostInput) : State :=
  { State.start params inbox with
    phase := .decoding, grp := .full g, history := [.read (.data g.bytes)] }

/-- A byte waiting to be written. -/
def writing (b : Byte) (inbox : List HostInput) : State :=
  { State.start params inbox with phase := .writing, obuf := some b }

/-- A group being decoded symbol by symbol, at position `i` with accumulator `a`. -/
def atSymbol (g : Group) (i : Fin 4) (a : Byte) : State :=
  { decoding g [] with pos := some i, acc := some a }

/-- What a test looks at: phase, cause, OUT. -/
def seen : Result → Option (Phase × Option Cause × List Byte)
  | .next s => some (s.phase, s.cause, output s.history)
  | .fault _ => none
  | .refused _ => none

/-- The accumulator, the position and `obuf`. -/
def inside : Result → Option (Option Byte × Option (Fin 4) × Option Byte)
  | .next s => some (s.acc, s.pos, s.obuf)
  | .fault _ => none
  | .refused _ => none

/-- The group buffer. -/
def buffer : Result → Option GroupBuffer
  | .next s => some s.grp
  | .fault _ => none
  | .refused _ => none

/-- The exit status. -/
def exitOf : Result → Option (Option Nat)
  | .next s => some s.exit
  | .fault _ => none
  | .refused _ => none

def gABCD : Group := ⟨0x41#8, 0x42#8, 0x43#8, 0x44#8⟩
def gDDDD : Group := ⟨0x44#8, 0x44#8, 0x44#8, 0x44#8⟩
def gAXAA : Group := ⟨0x41#8, 0x58#8, 0x41#8, 0x41#8⟩

/-! ### Well-formedness: each check refuses an ill-formed term -/

theorem test_wf_symV0 : (Instr.symV0 0x42#8).wf abcd = false ∧ (Instr.symV0 0x41#8).wf abcd = true := by decide
theorem test_wf_symV1 : (Instr.symV1 0x41#8).wf abcd = false ∧ (Instr.symV1 0x42#8).wf abcd = true := by decide
theorem test_wf_symV2 : (Instr.symV2 0x44#8).wf abcd = false ∧ (Instr.symV2 0x43#8).wf abcd = true := by decide
theorem test_wf_symV3 : (Instr.symV3 0x00#8).wf abcd = false ∧ (Instr.symV3 0x44#8).wf abcd = true := by decide
theorem test_wf_symInvalid : (Instr.symInvalid 0x43#8).wf abcd = false ∧ (Instr.symInvalid 0x45#8).wf abcd = true := by
  decide
theorem test_wf_wrOver : (Instr.wrOver 1#3).wf abcd = false ∧ (Instr.wrOver 0#3).wf abcd = false ∧
    (Instr.wrOver 2#3).wf abcd = true := by decide
theorem test_wf_alphabet : Alphabet.wf ⟨0x41#8, 0x42#8, 0x41#8, 0x44#8⟩ = false ∧ abcd.wf = true := by decide
theorem test_wf_failExit : FailExit.wf ⟨1, 1, 0, 1⟩ = false ∧ FailExit.wf ⟨1, 1, 1, 1⟩ = true := by decide

/-! ### Decoding: one word of each operation, from 30_encoding.md R49, R52, R54, R55 (symbols: V4 under D19) -/

theorem test_decode_symV0 : decode abcd (.sym8 0b01000001#8) = .ok (.symV0 0x41#8) := by rfl
theorem test_decode_symV1 : decode abcd (.sym8 0b01000010#8) = .ok (.symV1 0x42#8) := by rfl
theorem test_decode_symV2 : decode abcd (.sym8 0b01000011#8) = .ok (.symV2 0x43#8) := by rfl
theorem test_decode_symV3 : decode abcd (.sym8 0b01000100#8) = .ok (.symV3 0x44#8) := by rfl
theorem test_decode_symInvalid : decode abcd (.sym8 0b01000101#8) = .ok (.symInvalid 0x45#8) := by rfl
theorem test_decode_decodeGroup : decode abcd (.grp32 0b01000001_01000010_01000011_01000100#32) =
    .ok (.decodeGroup 0x41#8 0x42#8 0x43#8 0x44#8) := by rfl
theorem test_decode_rdFull : decode abcd (.rdrsp 0b0100#4 [1#8, 2#8, 3#8, 4#8]) = .ok (.rdFull 1#8 2#8 3#8 4#8) := by
  rfl
theorem test_decode_rdShort1 : decode abcd (.rdrsp 0b0001#4 [1#8]) = .ok (.rdShort1 1#8) := by rfl
theorem test_decode_rdShort2 : decode abcd (.rdrsp 0b0010#4 [1#8, 2#8]) = .ok (.rdShort2 1#8 2#8) := by rfl
theorem test_decode_rdShort3 : decode abcd (.rdrsp 0b0011#4 [1#8, 2#8, 3#8]) = .ok (.rdShort3 1#8 2#8 3#8) := by rfl
theorem test_decode_rdEof : decode abcd (.rdrsp 0b0000#4 []) = .ok .rdEof := by rfl
theorem test_decode_rdErr : decode abcd (.rdrsp 0b1000#4 []) = .ok .rdErr := by rfl
theorem test_decode_wrOk : decode abcd (.wrrsp 0b0001#4) = .ok .wrOk := by rfl
theorem test_decode_wrZero : decode abcd (.wrrsp 0b0000#4) = .ok .wrZero := by rfl
theorem test_decode_wrOver : decode abcd (.wrrsp 0b0010#4) = .ok (.wrOver 2#3) ∧
    decode abcd (.wrrsp 0b0111#4) = .ok (.wrOver 7#3) := ⟨rfl, rfl⟩
theorem test_decode_wrErr : decode abcd (.wrrsp 0b1000#4) = .ok .wrErr := by rfl
theorem test_decode_abort : decode abcd .signal = .ok .abort := by rfl

/-- V20: `0101` on `IN` is refused; so are `1001` on either channel and a count that is not the bytes delivered. -/
theorem test_decode_rejects : decode abcd (.rdrsp 0b0101#4 [1#8, 2#8, 3#8, 4#8, 5#8]) = .error (.readDescriptor 5#4) ∧
    decode abcd (.rdrsp 0b1001#4 []) = .error (.readDescriptor 9#4) ∧
    decode abcd (.wrrsp 0b1001#4) = .error (.writeDescriptor 9#4) ∧
    decode abcd (.rdrsp 0b0010#4 [1#8]) = .error (.readCount 2#4 1) := ⟨rfl, rfl, rfl, rfl⟩

/-- The table's numbering (log entry 8): descriptors in a whole byte, read first as `RDRSP`. -/
theorem test_table_words : decodeTableWord 8 4 = some (.rdFull 0 0 0 0) ∧ decodeTableWord 8 3 = some (.rdShort3 0 0 0) ∧
    decodeTableWord 8 0 = some .rdEof ∧ decodeTableWord 8 8 = some .rdErr ∧ decodeTableWord 8 7 = some (.wrOver 7) ∧
    decodeTableWord 8 9 = none ∧ decodeTableWord 32 0x01020304 = some (.decodeGroup 1 2 3 4) := by decide

/-! ### The codec and the group decoder: V4, W1 to W3, V5, V6 -/

theorem test_codec : codec abcd 0x41#8 = .ok 0 ∧ codec abcd 0x44#8 = .ok 3 ∧
    codec abcd 0x40#8 = .error .invalidSymbol ∧ codec abcd 0x61#8 = .error .invalidSymbol := ⟨rfl, rfl, rfl, rfl⟩
theorem test_decodeGroup_W : decodeGroup abcd ⟨0x41, 0x41, 0x41, 0x41⟩ = .ok 0x00#8 ∧
    decodeGroup abcd gDDDD = .ok 0xFF#8 ∧ decodeGroup abcd gABCD = .ok 0x1B#8 := ⟨rfl, rfl, rfl⟩
theorem test_decodeGroup_V5 : decodeGroup abcd ⟨0x41, 0x41, 0x44, 0x41⟩ = .ok 0x0C#8 ∧
    decodeGroup abcd ⟨0x43, 0x41, 0x42, 0x44⟩ = .ok 0x87#8 ∧ decodeGroup abcd ⟨0x42, 0x43, 0x44, 0x41⟩ = .ok 0x6C#8 :=
  ⟨rfl, rfl, rfl⟩
theorem test_decodeGroup_V6 : decodeGroup abcd ⟨0x58, 0x41, 0x41, 0x41⟩ = .error .invalidSymbol ∧
    decodeGroup abcd ⟨0x41, 0x41, 0x41, 0x58⟩ = .error .invalidSymbol ∧
    decodeGroup abcd ⟨0x00, 0x00, 0x00, 0x00⟩ = .error .invalidSymbol := ⟨rfl, rfl, rfl⟩

/-! ### One step of each operation -/

/-- R62: four A symbols give 0x00. -/
theorem test_symV0 : inside (exec (.symV0 0x41#8) (atSymbol gABCD 0 0x00#8)) = some (some 0x00#8, some 1, none) := by
  decide
/-- R68: C as the first symbol of a decode starts it, the accumulator set to zero. -/
theorem test_symV2_starts : inside (exec (.symV2 0x43#8) (decoding gABCD [])) = some (some 0x80#8, some 1, none) := by
  decide
/-- V5e: B at position 0 is 0x40. -/
theorem test_symV1 : inside (exec (.symV1 0x42#8) (atSymbol gABCD 0 0x00#8)) = some (some 0x40#8, some 1, none) := by
  decide
/-- V5d: C at position 1 is 0x20. -/
theorem test_symV2 : inside (exec (.symV2 0x43#8) (atSymbol gABCD 1 0x00#8)) = some (some 0x20#8, some 2, none) := by
  decide
/-- W3: D at position 3 completes 0x1B. -/
theorem test_symV3 : inside (exec (.symV3 0x44#8) (atSymbol gABCD 3 0x18#8)) = some (none, none, some 0x1B#8) := by
  decide
theorem test_symInvalid : seen (exec (.symInvalid 0x58#8) (atSymbol gAXAA 1 0x00#8)) =
    some (.failed, some .invalidSymbol, []) := by decide
/-- P1 step 2 and P2 step 5. -/
theorem test_decodeGroup : inside (step (decoding gABCD [])) = some (none, none, some 0x1B#8) := by decide
theorem test_decodeGroup_fails : seen (step (decoding gAXAA [])) = some (.failed, some .invalidSymbol, []) := by decide
/-- P1 step 1. -/
theorem test_rdFull : buffer (step (reading [.read 0b0100#4 gABCD.bytes])) =
    some ⟨some 0x41#8, some 0x42#8, some 0x43#8, some 0x44#8⟩ := by decide
/-- P3 step 7. -/
theorem test_rdShort1 : seen (step (reading [.read 0b0001#4 [0x43#8]])) = some (.failed, some .truncatedInput, []) := by
  decide
/-- V8. -/
theorem test_rdShort2 : seen (step (reading [.read 0b0010#4 [0x41#8, 0x42#8]])) =
    some (.failed, some .truncatedInput, []) := by decide
/-- V9; `grp` is not written (D24). -/
theorem test_rdShort3 : buffer (step (reading [.read 0b0011#4 [0x41#8, 0x42#8, 0x43#8]])) =
    some ⟨none, none, none, none⟩ := by decide
/-- V7. -/
theorem test_rdEof : seen (step (reading [.read 0b0000#4 []])) = some (.done, none, []) ∧
    exitOf (step (reading [.read 0b0000#4 []])) = some (some 0) := by decide
/-- V10. -/
theorem test_rdErr : seen (step (reading [.read 0b1000#4 []])) = some (.failed, some .readFault, []) ∧
    exitOf (step (reading [.read 0b1000#4 []])) = some (some 13) := by decide
/-- P1 step 3. -/
theorem test_wrOk : seen (step (writing 0x1B#8 [.write 0b0001#4])) = some (.reading, none, [0x1B#8]) := by decide
/-- V13. -/
theorem test_wrZero : seen (step (writing 0xFF#8 [.write 0b0000#4])) = some (.failed, some .writeFault, []) := by decide
/-- V15. -/
theorem test_wrOver : seen (step (writing 0x1B#8 [.write 0b0010#4])) = some (.failed, some .writeFault, []) := by decide
/-- V14. -/
theorem test_wrErr : seen (step (writing 0x87#8 [.write 0b1000#4])) = some (.failed, some .writeFault, []) := by decide
/-- V17. -/
theorem test_abort_reading : seen (step (reading [.abort false])) = some (.aborted, none, []) := by decide
/-- R99: a termination in `Decoding` comes before the decode or after it. -/
theorem test_abort_decoding : seen (step (decoding gABCD [.abort true])) = some (.aborted, none, []) ∧
    seen (step (decoding gABCD [.abort false])) = some (.writing, none, []) := by decide
/-- V16: both outputs are admitted, and no other. -/
theorem test_abort_writing : seen (step (writing 0x1B#8 [.abort false])) = some (.aborted, none, []) ∨
    seen (step (writing 0x1B#8 [.abort false])) = some (.aborted, none, [0x1B#8]) := by
  have h : seen (step (writing 0x1B#8 [.abort false])) =
      some (.aborted, none, output [.write 0x1B#8 (.unanswered (Config.abortTookByte 0))]) := by rfl
  rw [h]
  cases hb : Config.abortTookByte 0 <;> simp [output, Event.output, WriteResponse.took]
/-- V18: no response, no step. -/
theorem test_waiting : step (writing 0x1B#8 []) = .fault .waitingForHost := by rfl
/-- V19: a write response while reading is refused. -/
theorem test_wrong_class : step (reading [.write 0b0001#4]) = .refused (.notRequested .reading) := by rfl
/-- V20. -/
theorem test_reserved : step (reading [.read 0b0101#4 []]) = .refused (.outsideContract (.readDescriptor 5#4)) := by rfl
/-- The host's request for a table word: it runs first after reset. -/
theorem test_fetch_word : (seen (step (State.reset.withFetchWord 8 4))).isSome = true ∧
    (seen (step (State.reset.withFetchWord 8 1))).isSome = true ∧
    (seen (step (State.reset.withFetchWord 8 7))).isSome = true ∧
    (inside (step (State.reset.withFetchWord 32 0x41424344))).isSome = true := by decide
/-- R119 and R77 to R83: two groups, each answer in its turn, take six turns. -/
theorem test_endlessHost : seen (runWith (endlessHost fun _ => gABCD) 6 (reading [])) =
    some (.reading, none, [0x1B#8, 0x1B#8]) := by decide
/-- R116: a host may delay; V8 ends the run when it comes, and what comes later has no effect (R88). -/
theorem test_hostTurn_delay : seen (runWith (fun n => if n = 2 then [.read 0b0010#4 [0x41#8, 0x42#8]] else
    if n = 3 then [.abort true] else []) 4 (reading [])) = some (.failed, some .truncatedInput, []) := by decide

/-! ### Witnesses: each statement's hypotheses hold together somewhere -/

theorem witness_DecodeOfEncodeIsIdentity : abcd.wf = true ∧ (Instr.wrOver 2#3).wf abcd = true ∧
    (Instr.wrOver 7#3).wf abcd = true ∧ (Instr.symV2 0x43#8).wf abcd = true := by decide
theorem witness_EveryContractWordIsOneOperation : abcd.wf = true ∧ ([] : List Byte).length ≤ 4 ∧ gABCD.bytes.length ≤ 4 := by
  decide
theorem witness_WordsOfEachFormatDecode : abcd.wf = true := by decide
theorem witness_CodecInvertsTheAlphabet : abcd.wf = true ∧ (0x40#8 : Byte) ∉ abcd.legal ∧ (0x45#8 : Byte) ∉ abcd.legal := by
  decide
theorem witness_IllegalSymbolCountIs252 : abcd.wf = true := by decide
theorem witness_ReservedDescriptorsAreRefused :
    (∃ s : State, ∃ data rest, s.phase = .reading ∧ s.inbox = .read 0b0101#4 data :: rest) ∧
    (∃ s : State, ∃ data rest, s.phase = .writing ∧ s.inbox = .read 0b1111#4 data :: rest) ∧
    (∃ s : State, ∃ rest, s.phase = .writing ∧ s.inbox = .write 0b1001#4 :: rest) ∧
    (5 ≤ (0b0101#4 : Descriptor).toNat ∧ (0b0101#4 : Descriptor).toNat ≤ 7) ∧ 9 ≤ (0b1001#4 : Descriptor).toNat :=
  ⟨⟨reading [.read 0b0101#4 []], [], [], rfl, rfl⟩, ⟨writing 0 [.read 0b1111#4 []], [], [], rfl, rfl⟩,
    ⟨writing 0 [.write 0b1001#4], [], rfl, rfl⟩, by decide, by decide⟩
theorem witness_GroupDecodeClosedForm : codec abcd gABCD.s0 = .ok 0 ∧ codec abcd gABCD.s1 = .ok 1 ∧
    codec abcd gABCD.s2 = .ok 2 ∧ codec abcd gABCD.s3 = .ok 3 := ⟨rfl, rfl, rfl, rfl⟩
theorem witness_OrOfContributionsIsAddition : (0 : Fin 4) ≠ 3 := by decide
theorem witness_GroupDecodeIsBijective : abcd.wf = true ∧ decodeGroup abcd gDDDD = .ok 0xFF#8 := ⟨by decide, rfl⟩
theorem witness_GroupDecodeLanesAreIndependent : abcd.wf = true ∧ decodeGroup abcd gABCD = .ok 0x1B#8 :=
  ⟨by decide, rfl⟩

theorem noEarlyAbort_nil (s : State) (h : s.inbox = []) : s.noEarlyAbort := by
  intro rest; simp [h]

theorem witness_StepRunsTheDecodedOperation :
    (∃ s : State, ∃ h rest i, s.phase = .reading ∧ s.inbox = h :: rest ∧ decode s.params.alphabet h.code = .ok i) ∧
    (∃ s : State, ∃ h rest i, s.phase = .writing ∧ s.inbox = h :: rest ∧ decode s.params.alphabet h.code = .ok i) ∧
    (∃ s : State, ∃ g, s.phase = .decoding ∧ s.noEarlyAbort ∧ s.underway = none ∧ s.grp.group = some g) ∧
    (∃ s : State, ∃ a p sym i, s.phase = .decoding ∧ s.noEarlyAbort ∧ s.underway = some (a, p) ∧ s.grp.entry p = some sym ∧
      decode s.params.alphabet (.sym8 sym) = .ok i) ∧
    (∃ s : State, ∃ rest, s.phase = .decoding ∧ s.inbox = .abort true :: rest) :=
  ⟨⟨reading [.read 0b1000#4 []], _, _, _, rfl, rfl, rfl⟩, ⟨writing 0 [.write 0b1000#4], _, _, _, rfl, rfl, rfl⟩,
    ⟨decoding gABCD [], _, rfl, noEarlyAbort_nil _ rfl, rfl, rfl⟩,
    ⟨atSymbol gABCD 3 0, _, _, _, _, rfl, noEarlyAbort_nil _ rfl, rfl, rfl, rfl⟩,
    ⟨decoding gABCD [.abort true], _, rfl, rfl⟩⟩
theorem witness_NoStepWhenWaitingOrTerminal :
    (∃ s : State, s.phase.terminal = true) ∧
    (∃ s : State, (s.phase = .reading ∨ s.phase = .writing) ∧ s.inbox = []) :=
  ⟨⟨{ reading [] with phase := .aborted }, rfl⟩, ⟨reading [], .inl rfl, rfl⟩⟩
theorem witness_OperationOfAnotherPhaseIsRefused :
    ∃ (i : Instr) (s : State) (p : Phase), phaseOf i = some p ∧ s.phase ≠ p ∧ s.phase.terminal = false :=
  ⟨.wrOk, reading [], .writing, rfl, by decide, rfl⟩
theorem witness_ReadingAnUnwrittenElementFaults :
    (∃ s : State, s.phase = .writing ∧ s.obuf = none) ∧
    (∃ s : State, s.phase = .decoding ∧ s.noEarlyAbort ∧ s.underway = none ∧ s.grp.group = none) ∧
    (∃ s : State, ∃ a p, s.phase = .decoding ∧ s.noEarlyAbort ∧ s.underway = some (a, p) ∧ s.grp.entry p = none) :=
  ⟨⟨{ reading [] with phase := .writing }, rfl, rfl⟩,
    ⟨{ reading [] with phase := .decoding }, rfl, noEarlyAbort_nil _ rfl, rfl, rfl⟩,
    ⟨{ (reading []).beginDecode with phase := .decoding }, _, _, rfl, noEarlyAbort_nil _ rfl, rfl, rfl⟩⟩
theorem witness_LegalSymbolsAccumulate :
    (∃ s : State, ∃ a, s.phase = .decoding ∧ s.acc = some a ∧ s.pos = some 3) ∧
    (∃ s : State, ∃ a, s.phase = .decoding ∧ s.acc = some a ∧ s.pos = some 2) ∧
    (∃ s : State, s.phase = .decoding ∧ s.acc = none ∧ s.pos = none) :=
  ⟨⟨atSymbol gABCD 3 0x18, _, rfl, rfl, rfl⟩, ⟨atSymbol gABCD 2 0x10, _, rfl, rfl, rfl⟩,
    ⟨decoding gABCD [], rfl, rfl, rfl⟩⟩
theorem witness_InvalidSymbolFailsTheDecode : ∃ s : State, s.phase = .decoding := ⟨atSymbol gAXAA 1 0, rfl⟩
theorem witness_SymbolStepsReachTheGroupStep :
    ∃ s t : State, s.phase = .decoding ∧ s.Idle ∧ s.noEarlyAbort ∧ step s = .next t :=
  ⟨decoding gABCD [], _, rfl, ⟨rfl, rfl⟩, noEarlyAbort_nil _ rfl, rfl⟩
theorem witness_LegalGroupDecodesToWriting : ∃ s : State, s.phase = .decoding ∧ s.params.wf = true :=
  ⟨decoding gABCD [], rfl, by decide⟩
theorem witness_IllegalGroupFails :
    ∃ (s : State) (g : Group), s.phase = .decoding ∧ ∃ b ∈ g.bytes, b ∉ s.params.alphabet.legal :=
  ⟨decoding gAXAA [], gAXAA, rfl, by decide⟩
theorem witness_FrameOfDecodingOperations :
    ∃ (i : Instr) (s t : State), phaseOf i = some .decoding ∧ exec i s = .next t :=
  ⟨.symV1 0x42, atSymbol gABCD 1 0, _, rfl, rfl⟩
theorem witness_FullReadFillsTheGroup : ∃ s : State, s.phase = .reading := ⟨reading [], rfl⟩
theorem witness_ShortReadFailsTruncated : ∃ s : State, s.phase = .reading := ⟨reading [], rfl⟩
theorem witness_EndOfStreamIsDone : ∃ s : State, s.phase = .reading := ⟨reading [], rfl⟩
theorem witness_ReadErrorFails : ∃ s : State, s.phase = .reading := ⟨reading [], rfl⟩
theorem witness_FrameOfReadResponses :
    ∃ (i : Instr) (s t : State), phaseOf i = some .reading ∧ exec i s = .next t :=
  ⟨.rdErr, reading [], _, rfl, rfl⟩
theorem witness_AcceptedWriteOutputsTheByte : ∃ (s : State) (b : Byte), s.phase = .writing ∧ s.obuf = some b :=
  ⟨writing 0x1B [], _, rfl, rfl⟩
theorem witness_WrongWriteCountFails :
    (∃ (s : State) (b : Byte), s.phase = .writing ∧ s.obuf = some b) ∧
    (2 ≤ (2#3 : BitVec 3).toNat ∧ 2 ≤ (7#3 : BitVec 3).toNat) ∧ (0 : Nat) ≠ 1 ∧ (2 : Nat) ≠ 1 ∧ (7 : Nat) ≠ 1 :=
  ⟨⟨writing 0x1B [], _, rfl, rfl⟩, by decide, by decide, by decide, by decide⟩
theorem witness_WriteErrorFails : ∃ (s : State) (b : Byte), s.phase = .writing ∧ s.obuf = some b :=
  ⟨writing 0x1B [], _, rfl, rfl⟩
theorem witness_FrameOfWriteResponses :
    ∃ (i : Instr) (s t : State), phaseOf i = some .writing ∧ exec i s = .next t :=
  ⟨.wrOver 7, writing 0x1B [], _, rfl, rfl⟩
theorem witness_TerminationAborts :
    (∃ s : State, s.phase.terminal = false ∧ s.phase ≠ .writing) ∧
    (∃ s : State, ∃ b, s.phase.terminal = false ∧ s.phase = .writing ∧ s.obuf = some b) :=
  ⟨⟨decoding gABCD [], rfl, by decide⟩, ⟨writing 0x1B [], _, rfl, rfl, rfl⟩⟩
theorem witness_FailureEntryIsTheSpecs :
    (∃ s t : State, step s = .next t ∧ t.phase = .failed ∧ s.params.wf = true) ∧
    (∃ s t : State, step s = .next t ∧ t.phase ≠ .failed) :=
  ⟨⟨reading [.read 0b1000#4 []], _, rfl, rfl, by decide⟩, ⟨reading [.read 0b0000#4 []], _, rfl, by decide⟩⟩
theorem witness_PhaseChangesOnlyByTheTransitions :
    (∃ s t : State, step s = .next t) ∧ (∃ s t : State, step s = .next t ∧ s.pos ≠ none) :=
  ⟨⟨reading [.read 0b0000#4 []], _, rfl⟩, ⟨atSymbol gABCD 0 0, _, rfl, by decide⟩⟩
theorem witness_RegistersChangeOnlyWhereTheSpecSays : ∃ s t : State, step s = .next t ∧ t.grp ≠ s.grp :=
  ⟨reading [.read 0b0100#4 gABCD.bytes], _, rfl, by decide⟩
theorem witness_OutputGrowsOnlyByAcceptedWrites :
    ∃ s t : State, step s = .next t ∧ output t.history ≠ output s.history :=
  ⟨writing 0x1B [.write 0b0001#4], _, rfl, by decide⟩
theorem witness_ParametersNeverChange : ∃ s t : State, Reaches s t ∧ s ≠ t :=
  ⟨reading [.read 0b0000#4 []], _, ⟨1, rfl⟩, by decide⟩
theorem witness_RequestOfEachPhase :
    (∃ s : State, s.phase = .reading) ∧ (∃ s : State, ∃ b, s.phase = .writing ∧ s.obuf = some b) ∧
    (∃ s : State, s.phase = .decoding) ∧ (∃ s : State, s.phase.terminal = true) :=
  ⟨⟨reading [], rfl⟩, ⟨writing 1 [], _, rfl, rfl⟩, ⟨decoding gABCD [], rfl⟩, ⟨{ reading [] with phase := .done }, rfl⟩⟩
theorem witness_StartMeetsTheInvariant : params.wf = true := by decide
theorem witness_StepKeepsTheInvariant : ∃ s t : State, s.Inv ∧ step s = .next t :=
  ⟨reading [.read 0b0000#4 []], _,
    ⟨by decide, ⟨rfl, rfl⟩, by decide, by decide, by decide, by decide, by decide, by decide⟩, rfl⟩
theorem witness_StepKeepsTheHistoryOrder :
    (∃ s t : State, s.HistoryOk ∧ step s = .next t) ∧
    (∃ s t : State, s.HistoryOk ∧ s.pos ≠ none ∧ step s = .next t) :=
  ⟨⟨reading [.read 0b0000#4 []], _, ⟨[], [], by simp, rfl, ⟨rfl, rfl⟩, rfl⟩, rfl⟩,
    ⟨atSymbol gABCD 3 0x18, _,
      ⟨[], _, by simp, rfl, gABCD, rfl, rfl, .inr ⟨3, 0x18#8, rfl, rfl, rfl⟩⟩, by decide, rfl⟩⟩
theorem witness_ReachableStatesMeetTheStateInvariants :
    (∃ s : State, Reachable s ∧ s.phase = .decoding) ∧ (∃ s : State, Reachable s ∧ s.phase = .reading) ∧
    (∃ s : State, Reachable s ∧ s.phase = .writing) :=
  ⟨⟨_, ⟨params, [.read 0b0100#4 gABCD.bytes], by decide, 1, rfl⟩, rfl⟩, ⟨_, ⟨params, [], by decide, 0, rfl⟩, rfl⟩,
    ⟨_, ⟨params, [.read 0b0100#4 gABCD.bytes], by decide, 2, rfl⟩, rfl⟩⟩
theorem witness_CleanEndOutputsEveryGroup : ∃ s : State, Reachable s ∧ s.phase = .done :=
  ⟨_, ⟨params, [.read 0b0000#4 []], by decide, 1, rfl⟩, rfl⟩
theorem witness_FailedRunKeepsOnlyWholeGroups : ∃ s : State, Reachable s ∧ s.phase = .failed :=
  ⟨_, ⟨params, [.read 0b1000#4 []], by decide, 1, rfl⟩, rfl⟩
theorem witness_AtMostOneDiagnosticPerRun : ∃ s : State, Reachable s := ⟨_, ⟨params, [], by decide, 0, rfl⟩⟩
theorem witness_ThreeStepsPerGroup :
    ∃ (s : State) (g : Group) (y : Byte) (rest : List HostInput), s.phase = .reading ∧ s.Idle ∧
      s.inbox = .read 0b0100#4 g.bytes :: .write 0b0001#4 :: rest ∧ decodeGroup s.params.alphabet g = .ok y :=
  ⟨reading [.read 0b0100#4 gABCD.bytes, .write 0b0001#4], gABCD, 0x1B#8, [], rfl, ⟨rfl, rfl⟩, rfl, rfl⟩
theorem witness_RunLengthIsBounded : ∃ s t : State, runFor 1 s = .next t := ⟨reading [.read 0b0000#4 []], _, rfl⟩
theorem witness_WholeStreamFunction :
    ∃ (s : State) (bs : List Byte), s.phase = .reading ∧ s.Idle ∧ s.inbox = refHost bs :=
  ⟨reading (refHost (gABCD.bytes ++ [0x42#8])), _, rfl, ⟨rfl, rfl⟩, rfl⟩
theorem witness_SameResponsesSameOutcome :
    ∃ s s' t : State, s ≠ s' ∧ s.closed = s'.closed ∧ s.noAbort ∧ runFor 1 s = .next t :=
  ⟨reading [.read 0b1000#4 []], { reading [.read 0b1000#4 []] with params := ⟨abcd, ⟨1, 1, 1, 1⟩⟩, draws := 9 }, _,
    by decide, rfl, by intro b; cases b <;> decide, rfl⟩

/-- A host whose input is empty: it answers the first request by the end of the stream. -/
def emptyHost : HostPlan := fun n => if n = 0 then [.read 0b0000#4 []] else []

theorem emptyHost_carried (n : Nat) : carried ((List.range n).flatMap emptyHost) = 0 := by
  induction n with
  | zero => rfl
  | succ n ih =>
    have hn : carried (emptyHost n) = 0 := by unfold emptyHost; split <;> rfl
    simp only [carried] at *
    simp [List.range_succ, ih, hn]

theorem emptyHost_answers : HostAnswers emptyHost (reading []) := by
  intro n t q hr hq
  cases n with
  | zero =>
    cases hr
    cases hq
    exact ⟨0, _, _, _, le_rfl, rfl, rfl, rfl, .inl rfl⟩
  | succ n =>
    have hdone := runWith_terminal (h := emptyHost) (n := 1) (m := n + 1) (s := reading []) rfl rfl (by omega)
    rw [hr] at hdone
    cases hdone
    cases hq

theorem witness_AnsweredRunOnFiniteInputEnds :
    ∃ (h : HostPlan) (s : State), s.Inv ∧ HostAnswers h s ∧ FiniteInput h :=
  ⟨emptyHost, reading [],
    ⟨by decide, ⟨rfl, rfl⟩, by decide, by decide, by decide, by decide, by decide, by decide⟩,
    emptyHost_answers, 0, fun n => by rw [emptyHost_carried]⟩
theorem witness_EndlessFullReadsRunForEver :
    ∃ (s : State) (gs : Nat → Group) (ys : Nat → Byte), s.phase = .reading ∧ s.Idle ∧ s.inbox = [] ∧
      ∀ k, decodeGroup s.params.alphabet (gs k) = .ok (ys k) :=
  ⟨reading [], fun _ => gABCD, fun _ => 0x1B#8, rfl, ⟨rfl, rfl⟩, rfl, fun _ => rfl⟩
theorem witness_SilentHostIsWaitedForEver :
    (∃ (h : HostPlan) (s t : State) (n : Nat), runWith h n s = .next t ∧ t.phase = .reading ∧ t.inbox = [] ∧
      (∀ m, n ≤ m → h m = []) ∧ t.request ≠ none) ∧
    (∃ (h : HostPlan) (s t : State) (n : Nat), runWith h n s = .next t ∧ t.phase = .writing ∧ t.inbox = [] ∧
      (∀ m, n ≤ m → h m = []) ∧ t.request ≠ none) :=
  ⟨⟨fun _ => [], reading [], _, 0, rfl, rfl, rfl, fun _ _ => rfl, by decide⟩,
    ⟨fun n => if n = 0 then [.read 0b0100#4 gABCD.bytes] else [], reading [], _, 2, rfl, rfl, rfl,
      fun m hm => if_neg (by omega), by decide⟩⟩
theorem witness_RunsInTimeAreReachable :
    ∃ (p : Params) (h : HostPlan) (n : Nat) (t : State), p.wf = true ∧ runWith h n (.start p []) = .next t ∧
      t.phase = .writing :=
  ⟨params, endlessHost fun _ => gABCD, 2, _, by decide, rfl, rfl⟩

end Sys2Proof.Tests
end

section
/-! SUPPORT. The state invariants along a run, and the statement on a clean end (10_state.md R29, R30). -/

namespace Sys2Proof.Machine

/-! What the invariant says of `cause` and `exit` while the block runs (R29c, R29d). -/

theorem State.Inv.cause_none {s : State} (hs : s.Inv) (hp : s.phase ≠ .failed) : s.cause = none :=
  not_not.1 fun hc => hp (hs.failed_iff_cause.2 hc)

theorem State.Inv.running_registers {s : State} (hs : s.Inv) (hp : s.phase.terminal = false) :
    s.cause = none ∧ s.exit = none :=
  ⟨hs.cause_none fun hf => by simp [hf, Phase.terminal] at hp, hs.exit_none_iff.2 hp⟩

/-! The invariant at the start of a run, and in the state each kind of transition leads to. -/

/-- The values of R27 meet the invariant under all legal parameters. -/
theorem inv_start {p : Params} (inbox : List HostInput) (hp : p.wf = true) : (State.start p inbox).Inv := by
  constructor <;> simp [State.start, State.Idle, Phase.terminal, hp]

/-- The failure entry (60_exceptions.md R98) needs of the invariant only legal parameters and an idle accumulator. -/
theorem inv_failedWith {s : State} (c : Cause) (evs : List Event) (text : String) (hw : s.params.wf = true)
    (hi : s.Idle) : (s.failedWith c evs text).Inv := by
  constructor <;> simp_all [State.Idle, Phase.terminal]

/-- A running block that goes on to another running phase keeps `cause` and `exit`; what remains to be shown is what
the new phase asks for. -/
theorem State.Inv.keeps_running {s t : State} (hs : s.Inv) (hp : s.phase.terminal = false)
    (hw : t.params = s.params) (hi : t.Idle) (hc : t.cause = s.cause) (he : t.exit = s.exit)
    (ht : t.phase = .reading ∧ inConsumed t.history = 4 * (output t.history).length ∨
      (t.phase = .decoding ∧ t.grp.group ≠ none ∨ t.phase = .writing ∧ t.obuf ≠ none) ∧
        inConsumed t.history = 4 * (output t.history).length + 4) : t.Inv := by
  obtain ⟨hcause, hexit⟩ := hs.running_registers hp
  rw [hcause] at hc
  rw [hexit] at he
  have hwf : t.params.wf = true := hw ▸ hs.params_wf
  obtain ⟨hph, hn⟩ | ⟨⟨hph, hgrp⟩ | ⟨hph, hobuf⟩, hn⟩ := ht
  · exact ⟨hwf, hi, by simp [hph], by simp [hph], by simp [hph, hc], by simp [hph, he, Phase.terminal],
      fun _ => hn, by simp [hph]⟩
  · exact ⟨hwf, hi, fun _ => hgrp, by simp [hph], by simp [hph, hc], by simp [hph, he, Phase.terminal],
      by simp [hph], fun _ => hn⟩
  · exact ⟨hwf, hi, by simp [hph], fun _ => hobuf, by simp [hph, hc], by simp [hph, he, Phase.terminal],
      by simp [hph], fun _ => hn⟩

/-- Every transition keeps the invariant (R29). A full read takes four bytes into the group in hand, and an accepted
write settles them with one byte of output; the ends of a run take the counts as they are. -/
theorem Transition.keeps_inv {s t : State} (hs : s.Inv) (h : Transition s t) : t.Inv := by
  cases h with
  | fullRead g rest hp hi =>
    refine hs.keeps_running (by rw [hp]; rfl) rfl hs.idle rfl rfl (.inr ⟨.inl ⟨rfl, by simp⟩, ?_⟩)
    simpa using hs.settled (.inl hp)
  | group g y hp hn hu hg hd =>
    exact hs.keeps_running (by rw [hp]; rfl) rfl ⟨rfl, rfl⟩ rfl rfl
      (.inr ⟨.inr ⟨rfl, by simp⟩, hs.in_hand (.inl hp)⟩)
  | accepted b rest hp hb hi =>
    refine hs.keeps_running (by rw [hp]; rfl) rfl hs.idle rfl rfl (.inl ⟨rfl, ?_⟩)
    simpa [Nat.mul_add] using hs.in_hand (.inr hp)
  | symbol i a sym v hp hn hpos hacc he hc =>
    rw [hs.idle.2] at hpos
    cases hpos
  | badSymbol i a sym text hp hn hpos hacc he hc ht => exact inv_failedWith _ _ _ hs.params_wf ⟨rfl, rfl⟩
  | badGroup g text hp hn hu hg hd ht => exact inv_failedWith _ _ _ hs.params_wf ⟨rfl, rfl⟩
  | shortRead bs rest text hp hi h1 h3 ht => exact inv_failedWith _ _ _ hs.params_wf hs.idle
  | readError rest text hp hi ht => exact inv_failedWith _ _ _ hs.params_wf hs.idle
  | rejected b r desc rest text hp hb hi hr ht => exact inv_failedWith _ _ _ hs.params_wf hs.idle
  | endOfStream rest hp hi =>
    have hcause := hs.cause_none (by simp [hp])
    have hsettled := hs.settled (.inl hp)
    exact ⟨hs.params_wf, hs.idle, by simp, by simp, by simp [hcause], by simp [Phase.terminal],
      by simpa using hsettled, by simp⟩
  | aborted early rest evs n hp hi he =>
    have hcause := (hs.running_registers hp).1
    exact ⟨hs.params_wf, hs.idle, by simp, by simp, by simp [hcause], by simp [Phase.terminal], by simp, by simp⟩

/-- The invariant holds in every state of a run of a block with legal parameters. -/
theorem reachable_inv {s : State} (h : Reachable s) : s.Inv := by
  obtain ⟨p, inbox, hp, hr⟩ := h
  exact reaches_keeps (fun _ _ hs hst => (step_transition hst).keeps_inv hs) hr (inv_start inbox hp)

/-- The end of the stream is the only transition to `Done` (R17), and it sets `exit` to 0 (R22). -/
theorem Transition.done_exit_zero {s t : State} (h : Transition s t) (ht : t.phase = .done) : t.exit = some 0 := by
  cases h with
  | endOfStream rest hp hi => rfl
  | symbol i a sym v hp hn hpos hacc he hc => split at ht <;> simp_all
  | fullRead | shortRead | readError | badSymbol | group | badGroup | accepted | rejected | aborted => cases ht

theorem reachable_done_exit_zero {s : State} (h : Reachable s) : s.phase = .done → s.exit = some 0 := by
  obtain ⟨p, inbox, -, hr⟩ := h
  exact reaches_keeps (P := fun s => s.phase = .done → s.exit = some 0)
    (fun _ _ _ hst => (step_transition hst).done_exit_zero) hr (fun hd => by cases hd)

/-- Settles O45: at `Done` the invariant has the input four times the output, and `Done` is entered with exit 0. -/
theorem cleanEndOutputsEveryGroup : Obligations.CleanEndOutputsEveryGroup := by
  intro s hr hd
  have hcount := (reachable_inv hr).settled (.inr hd)
  exact ⟨by omega, by omega, reachable_done_exit_zero hr hd⟩

end Sys2Proof.Machine
end

section
/-! SUPPORT. The codec as the inverse of the alphabet (30_encoding.md R52). -/

namespace Sys2Proof.Machine

@[simp] theorem Alphabet.sym_zero (al : Alphabet) : al.sym 0#2 = al.a := rfl
@[simp] theorem Alphabet.sym_one (al : Alphabet) : al.sym 1#2 = al.b := rfl
@[simp] theorem Alphabet.sym_two (al : Alphabet) : al.sym 2#2 = al.c := rfl
@[simp] theorem Alphabet.sym_three (al : Alphabet) : al.sym 3#2 = al.d := rfl

/-- The codec gives back the value of each symbol: it tests the four symbols in the order of their values, and an
injective alphabet has no earlier match. -/
theorem codec_sym {al : Alphabet} (hw : al.wf = true) (v : UInt2) : codec al (al.sym v) = .ok v := by
  simp only [Alphabet.wf, bne_iff_ne, Bool.and_eq_true] at hw
  obtain ⟨⟨⟨⟨⟨hab, hac⟩, had⟩, hbc⟩, hbd⟩, hcd⟩ := hw
  have hv : v = 0 ∨ v = 1 ∨ v = 2 ∨ v = 3 := by revert v; decide
  obtain rfl | rfl | rfl | rfl := hv
  · simp [codec]
  · simp [codec, hab.symm]
  · simp [codec, hac.symm, hbc.symm]
  · simp [codec, had.symm, hbd.symm, hcd.symm]

/-- A byte outside `LEGAL` is an invalid symbol (40_codec.md R66), under every alphabet. -/
theorem codec_illegal {al : Alphabet} {b : Byte} (hb : b ∉ al.legal) : codec al b = .error .invalidSymbol := by
  obtain ⟨_, -, hlegal⟩ | ⟨herr, -⟩ := codec_cases al b
  · exact absurd hlegal hb
  · exact herr

/-- Settles O5: on a symbol the codec finds its value, on any other byte it runs out of symbols to compare with. -/
theorem codecInvertsTheAlphabet : Obligations.CodecInvertsTheAlphabet :=
  fun _ hw => ⟨codec_sym hw, fun _ => codec_illegal⟩

end Sys2Proof.Machine
end

section
/-! SUPPORT. The lanes of the output byte, and OR as addition over them (41_group_decoder.md R70, R74). -/

namespace Sys2Proof.Machine

/-- The contribution at position `i` has the two bits of its value in lane `i`, bits `7-2i` and `6-2i`, and no other
bit. -/
theorem contribution_getLsbD {i k : Nat} (v : UInt2) (hi : i < 4) :
    (contribution i v).getLsbD k = (!decide (k < 6 - 2 * i) && v.getLsbD (k - (6 - 2 * i))) := by
  simp only [contribution, zext8, BitVec.getLsbD_shiftLeft, BitVec.getLsbD_setWidth]
  by_cases hk : k < 8
  · have hk' : k - (6 - 2 * i) < 8 := by omega
    simp [hk, hk']
  · have hout : v.getLsbD (k - (6 - 2 * i)) = false := BitVec.getLsbD_of_ge _ _ (by omega)
    simp [hout]

/-- A set bit of a contribution lies in the contribution's lane. -/
theorem lane_of_contribution_getLsbD {i k : Nat} {v : UInt2} (hi : i < 4) (h : (contribution i v).getLsbD k = true) :
    6 - 2 * i ≤ k ∧ k < 8 - 2 * i := by
  rw [contribution_getLsbD v hi, Bool.and_eq_true, Bool.not_eq_true', decide_eq_false_iff_not] at h
  obtain ⟨hlow, hbit⟩ := h
  have hhigh := BitVec.lt_of_getLsbD hbit
  omega

/-- The lanes of two positions have no bit in common. -/
theorem contribution_and_contribution {i j : Nat} (v w : UInt2) (hi : i < 4) (hj : j < 4) (h : i ≠ j) :
    contribution i v &&& contribution j w = 0 := by
  refine BitVec.eq_of_getLsbD_eq fun k _ => BitVec.getLsbD_zero ▸ Bool.eq_false_iff.2 fun hk => ?_
  rw [BitVec.getLsbD_and, Bool.and_eq_true] at hk
  obtain ⟨hki, hkj⟩ := hk
  have hlanei := lane_of_contribution_getLsbD hi hki
  have hlanej := lane_of_contribution_getLsbD hj hkj
  omega

/-- The loop of `DecodeGroup` (R68) at position `i`: the lanes still to be filled are clear. -/
def ClearFrom (acc : Byte) (i : Nat) : Prop :=
  ∀ j, i ≤ j → j < 4 → ∀ w, acc &&& contribution j w = 0

theorem clearFrom_zero : ClearFrom 0 0 := fun _ _ _ _ => BitVec.zero_and

/-- Accumulating at position `i` fills lane `i` only. -/
theorem ClearFrom.accumulate {acc : Byte} {i : Nat} (h : ClearFrom acc i) (hi : i < 4) (v : UInt2) :
    ClearFrom (accumulate acc i v) (i + 1) := by
  intro j hij hj w
  have hacc := h j (by omega) hj w
  have hlane := contribution_and_contribution v w hi hj (by omega)
  rw [Machine.accumulate, BitVec.and_or_distrib_right, hacc, hlane, BitVec.or_self]

/-- Accumulating into a lane that is still clear is an addition. -/
theorem ClearFrom.accumulate_eq_add {acc : Byte} {i : Nat} (h : ClearFrom acc i) (hi : i < 4) (v : UInt2) :
    Machine.accumulate acc i v = acc + contribution i v :=
  (BitVec.add_eq_or_of_and_eq_zero _ _ (h i le_rfl hi v)).symm

/-- The four accumulations of a group are additions. -/
theorem accumulate_group_eq_add (v0 v1 v2 v3 : UInt2) :
    accumulate (accumulate (accumulate (accumulate 0 0 v0) 1 v1) 2 v2) 3 v3 =
      contribution 0 v0 + contribution 1 v1 + contribution 2 v2 + contribution 3 v3 := by
  have clear1 := clearFrom_zero.accumulate (by decide) v0
  have clear2 := clear1.accumulate (by decide) v1
  have clear3 := clear2.accumulate (by decide) v2
  rw [clear3.accumulate_eq_add (by decide), clear2.accumulate_eq_add (by decide),
    clear1.accumulate_eq_add (by decide), clearFrom_zero.accumulate_eq_add (by decide)]
  exact congrArg (· + _ + _ + _) (BitVec.zero_add _)

/-- Settles O9: distinct lanes share no bit, so no OR in the assembly of the byte drops a carry. -/
theorem orOfContributionsIsAddition : Obligations.OrOfContributionsIsAddition := by
  refine ⟨fun i j v w hij => ?_, accumulate_group_eq_add⟩
  have hand := contribution_and_contribution v w i.isLt j.isLt (Fin.val_ne_of_ne hij)
  exact ⟨hand, by rw [← BitVec.add_eq_or_of_and_eq_zero _ _ hand, BitVec.toNat_add_of_and_eq_zero hand]⟩

end Sys2Proof.Machine
end

section
/-! SUPPORT. Noninterference (42_stream_loop.md R92): what the spec leaves open of an outcome reaches nothing else.
Every operation but the termination, on a state and on that state closed, gives results that agree once closed. -/

namespace Sys2Proof.Machine

/-! Closing an event, a state, and what is fetched or answered. -/

@[simp] theorem closed_read (r : ReadResponse) : (Event.read r).closed = .read r := rfl
@[simp] theorem closed_write (b : Byte) (r : WriteResponse) : (Event.write b r).closed = .write b r := rfl
@[simp] theorem closed_diagnostic (c : Cause) (t : String) : (Event.diagnostic c t).closed = .diagnostic c "" := rfl
@[simp] theorem closed_status (p : Phase) (c : Option Cause) (e : Option Nat) :
    (Event.status p c e).closed = .status p c (if p = .done then e else none) := rfl

@[simp] theorem Event.closed_closed (e : Event) : e.closed.closed = e.closed := by
  cases e with
  | status p c x => by_cases hp : p = .done <;> simp [hp]
  | read | write | diagnostic => rfl

@[simp] theorem Event.output_closed (e : Event) : e.closed.output = e.output := by
  cases e <;> rfl

@[simp] theorem map_closed_map_closed (h : List Event) :
    (h.map Event.closed).map Event.closed = h.map Event.closed := by
  simp only [List.map_map, Function.comp_def, Event.closed_closed]

/-- Closing events forgets nothing of `OUT`. -/
@[simp] theorem output_map_closed (h : List Event) : output (h.map Event.closed) = output h := by
  simp [output, List.flatMap_map]

@[simp] theorem State.closed_phase (s : State) : s.closed.phase = s.phase := rfl
@[simp] theorem State.closed_grp (s : State) : s.closed.grp = s.grp := rfl
@[simp] theorem State.closed_acc (s : State) : s.closed.acc = s.acc := rfl
@[simp] theorem State.closed_pos (s : State) : s.closed.pos = s.pos := rfl
@[simp] theorem State.closed_obuf (s : State) : s.closed.obuf = s.obuf := rfl
@[simp] theorem State.closed_cause (s : State) : s.closed.cause = s.cause := rfl
@[simp] theorem State.closed_inbox (s : State) : s.closed.inbox = s.inbox := rfl
@[simp] theorem State.closed_history (s : State) : s.closed.history = s.history.map Event.closed := rfl
@[simp] theorem State.closed_alphabet (s : State) : s.closed.params.alphabet = s.params.alphabet := rfl
@[simp] theorem State.closed_underway (s : State) : s.closed.underway = s.underway := rfl

@[simp] theorem noAbort_closed (s : State) : s.closed.noAbort ↔ s.noAbort := Iff.rfl

/-- What is fetched, with the state closed. -/
def Fetched.closed : Fetched → Fetched
  | .word c s => .word c s.closed
  | .stuck f => .stuck f

/-- A result with its next state, if any, closed. -/
def closedResult : Result → Result
  | .next s => .next s.closed
  | .fault f => .fault f
  | .refused r => .refused r

theorem closedResult_eq_next {r : Result} {u : State} :
    closedResult r = .next u ↔ ∃ t, r = .next t ∧ t.closed = u := by
  cases r <;> simp [closedResult]

/-! The shared operations do not depend on what closing forgets. -/

theorem log_write_closed (s : State) (b : Byte) (r : WriteResponse) :
    s.closed.log (.write b r) = (s.log (.write b r)).closed := by
  simp only [State.log, State.closed, List.map_append, List.map_singleton, closed_write]
  rfl

theorem failedWith_closed (s : State) (c : Cause) (evs : List Event) (text text' : String) :
    (s.closed.failedWith c evs text').closed = (s.failedWith c evs text).closed := by
  simp [State.closed, State.failedWith]

theorem raise_closed (s : State) (c : Cause) : (s.closed.raise c).closed = (s.raise c).closed := by
  rw [raise_eq, raise_eq]
  exact failedWith_closed ..

theorem decoded_closed (s : State) (r : Except Cause Byte) : (s.closed.decoded r).closed = (s.decoded r).closed := by
  cases r with
  | ok y => simp [State.decoded, State.discardAcc, State.closed]
  | error c => exact raise_closed s.discardAcc c

theorem contribute_closed (s : State) (v : UInt2) (a : Byte) (i : Fin 4) :
    (s.closed.contribute v a i).closed = (s.contribute v a i).closed := by
  by_cases hi : i = 3
  · simpa [State.contribute, hi] using decoded_closed s _
  · by_cases hp : s.phase = .done <;> simp [State.contribute, hi, State.closed, hp]

theorem decodeSymbol_closed (s : State) (v : UInt2) :
    (s.closed.decodeSymbol v).closed = (s.decodeSymbol v).closed := by
  unfold State.decodeSymbol
  rw [State.closed_underway]
  cases s.underway with
  | some ai => exact contribute_closed ..
  | none => exact contribute_closed ..

theorem readFails_closed (s : State) (r : ReadResponse) (c : Cause) :
    (s.closed.readFails r c).closed = (s.readFails r c).closed := by
  rw [readFails_eq, readFails_eq]
  exact failedWith_closed ..

theorem writeAnswered_closed (s : State) (r : WriteResponse) {k : State → State}
    (hk : ∀ u : State, (k u.closed).closed = (k u).closed) :
    closedResult (s.closed.writeAnswered r k) = closedResult (s.writeAnswered r k) := by
  unfold State.writeAnswered
  rw [State.closed_obuf]
  cases s.obuf with
  | some b => exact congrArg Host.Outcome.next (by rw [log_write_closed, hk])
  | none => rfl

theorem inPhase_closed (s : State) (p : Phase) {r r' : Result} (h : closedResult r' = closedResult r) :
    closedResult (s.closed.inPhase p r') = closedResult (s.inPhase p r) := by
  unfold State.inPhase
  rw [State.closed_phase]
  split_ifs
  · rfl
  · exact h
  · rfl

/-! The meanings, the fetch and the step. -/

/-- Every operation but the termination, whose event may show a free value, agrees on a state and on it closed. -/
theorem exec_closed {i : Instr} (hi : i ≠ .abort) (s : State) :
    closedResult (exec i s.closed) = closedResult (exec i s) := by
  have onPhase {p : Phase} {t t' : State} (h : t'.closed = t.closed) :
      closedResult (s.closed.inPhase p (.next t')) = closedResult (s.inPhase p (.next t)) :=
    inPhase_closed s p (congrArg Host.Outcome.next h)
  cases i with
  | symV0 | symV1 | symV2 | symV3 => exact onPhase (decodeSymbol_closed s _)
  | symInvalid | decodeGroup => exact onPhase (decoded_closed s _)
  | rdFull b0 b1 b2 b3 => exact onPhase (by simp [State.log, State.closed])
  | rdEof => exact onPhase (by simp [State.log, State.logStatus, State.closed])
  | rdShort1 | rdShort2 | rdShort3 | rdErr => exact onPhase (readFails_closed s _ _)
  | wrOk => exact inPhase_closed s _ (writeAnswered_closed s _ fun u => by simp [State.closed])
  | wrZero | wrOver | wrErr => exact inPhase_closed s _ (writeAnswered_closed s _ fun u => raise_closed u _)
  | abort => exact absurd rfl hi

theorem runWord_closed {c : Code} (hc : c ≠ .signal) (s : State) :
    closedResult (runWord c s.closed) = closedResult (runWord c s) := by
  unfold runWord
  rw [State.closed_alphabet]
  cases hd : decode s.params.alphabet c with
  | error e => rfl
  | ok i =>
    refine exec_closed ?_ s
    rintro rfl
    exact hc (Laws.WordOf.abort _ _ hd).2.symm

theorem fetchHost_closed (s : State) : s.closed.fetchHost = s.fetchHost.closed := by
  unfold State.fetchHost
  rw [State.closed_inbox]
  cases s.inbox <;> rfl

theorem fetchGroup_closed (s : State) : s.closed.fetchGroup = s.fetchGroup.closed := by
  unfold State.fetchGroup
  rw [State.closed_underway, State.closed_grp]
  obtain _ | ⟨a, i⟩ := s.underway
  · cases s.grp.group <;> rfl
  · dsimp only
    cases s.grp.entry i <;> rfl

theorem fetch_closed (s : State) : s.closed.fetch = s.fetch.closed := by
  unfold State.fetch
  rw [State.closed_phase, State.closed_inbox, fetchHost_closed, fetchGroup_closed]
  split
  · rfl
  · rfl
  · split <;> rfl
  all_goals rfl

/-- Only the termination puts the signal on its channel. -/
theorem code_eq_signal {a : HostInput} : a.code = .signal ↔ ∃ early, a = .abort early := by
  cases a <;> simp [HostInput.code]

theorem fetchHost_word {s t : State} {c : Code} (h : s.fetchHost = .word c t) : ∃ a ∈ s.inbox, a.code = c := by
  unfold State.fetchHost at h
  cases hi : s.inbox with
  | nil => rw [hi] at h; cases h
  | cons a rest => rw [hi] at h; cases h; exact ⟨a, List.mem_cons_self, rfl⟩

theorem fetchGroup_ne_signal {s t : State} {c : Code} (h : s.fetchGroup = .word c t) : c ≠ .signal := by
  rintro rfl
  unfold State.fetchGroup at h
  split at h <;> split at h <;> cases h

/-- A host that never terminates the block gives it no termination signal. -/
theorem fetch_ne_signal {s t : State} {c : Code} (hs : s.noAbort) (h : s.fetch = .word c t) : c ≠ .signal := by
  have host (hh : s.fetchHost = .word c t) : c ≠ .signal := by
    obtain ⟨a, ha, rfl⟩ := fetchHost_word hh
    intro hc
    obtain ⟨early, rfl⟩ := code_eq_signal.1 hc
    exact hs early ha
  cases hp : s.phase with
  | reading => exact host (fetch_host (.inl hp) ▸ h)
  | writing => exact host (fetch_host (.inr hp) ▸ h)
  | decoding =>
    have hn : s.noEarlyAbort := fun rest hi => hs true (hi ▸ List.mem_cons_self)
    exact fetchGroup_ne_signal (fetch_group hp hn ▸ h)
  | done | failed | aborted => rw [fetch_terminal (by rw [hp]; rfl)] at h; cases h

theorem step_closed {s : State} (hs : s.noAbort) : closedResult (step s.closed) = closedResult (step s) := by
  unfold step
  rw [fetch_closed]
  cases hf : s.fetch with
  | word c t => exact runWord_closed (fetch_ne_signal hs hf) t
  | stuck f => rfl

/-! Two runs side by side. -/

/-- A step takes in at most the host's next action. -/
theorem Transition.inbox_suffix {s t : State} (h : Transition s t) : t.inbox <:+ s.inbox := by
  have takes {a : HostInput} {rest : List HostInput} (hi : s.inbox = a :: rest) : rest <:+ s.inbox :=
    hi ▸ List.suffix_cons a rest
  cases h with
  | fullRead _ _ _ hi | shortRead _ _ _ _ hi | endOfStream _ _ hi | readError _ _ _ hi | accepted _ _ _ _ hi
  | rejected _ _ _ _ _ _ _ hi | aborted _ _ _ _ _ hi => exact takes hi
  | symbol => split <;> exact List.suffix_rfl
  | badSymbol | group | badGroup => exact List.suffix_rfl

theorem noAbort_step {s t : State} (hs : s.noAbort) (h : step s = .next t) : t.noAbort :=
  fun b hb => hs b ((step_transition h).inbox_suffix.subset hb)

/-- The step of the simulation: states that agree once closed step to states that agree once closed. -/
theorem step_of_closed_eq {s s' t : State} (hc : s.closed = s'.closed) (hs : s.noAbort) (h : step s = .next t) :
    ∃ t', step s' = .next t' ∧ t.closed = t'.closed := by
  have hs' : s'.noAbort := by rwa [← noAbort_closed, ← hc, noAbort_closed]
  have hstep : closedResult (step s') = .next t.closed := calc
    closedResult (step s') = closedResult (step s'.closed) := (step_closed hs').symm
    _ = closedResult (step s.closed) := by rw [hc]
    _ = closedResult (step s) := step_closed hs
    _ = .next t.closed := by rw [h]; rfl
  obtain ⟨t', ht', htc⟩ := closedResult_eq_next.1 hstep
  exact ⟨t', ht', htc.symm⟩

theorem runFor_of_closed_eq {s s' t : State} {k : Nat} (hc : s.closed = s'.closed) (hs : s.noAbort)
    (h : runFor k s = .next t) : ∃ t', runFor k s' = .next t' ∧ t.closed = t'.closed := by
  induction k generalizing s s' with
  | zero => cases h; exact ⟨s', rfl, hc⟩
  | succ k ih =>
    obtain ⟨u, hu, hrun⟩ := runFor_succ_next h
    obtain ⟨u', hu', huc⟩ := step_of_closed_eq hc hs hu
    obtain ⟨t', ht', htc⟩ := ih huc (noAbort_step hs hu) hrun
    exact ⟨t', (runFor_succ hu').2 ht', htc⟩

/-- Settles O51: the runs stay equal once closed, and closing keeps `OUT`, `cause` and `phase`. -/
theorem sameResponsesSameOutcome : Obligations.SameResponsesSameOutcome := by
  intro s s' t k hc hs h
  obtain ⟨t', ht', htc⟩ := runFor_of_closed_eq hc hs h
  have hout : output t.history = output t'.history := by
    simpa using congrArg (fun u : State => output u.history) htc
  exact ⟨t', ht', htc, hout, by simpa using congrArg State.cause htc,
    by simpa using congrArg State.phase htc⟩

end Sys2Proof.Machine
end

section
/-! SUPPORT. The internal step of `Decoding` on legal symbols (41_group_decoder.md R69, 42_stream_loop.md R80). -/

namespace Sys2Proof.Machine

/-- The four accumulations of a group put the bit pairs of its values side by side (R69): each bit of the byte lies in
one lane. -/
theorem accumulate_group_eq_append (v0 v1 v2 v3 : UInt2) :
    accumulate (accumulate (accumulate (accumulate 0 0 v0) 1 v1) 2 v2) 3 v3 = v0 ++ v1 ++ v2 ++ v3 := by
  refine BitVec.eq_of_getLsbD_eq fun k hk => ?_
  simp only [accumulate, BitVec.getLsbD_or, BitVec.getLsbD_append, contribution_getLsbD, Nat.reduceLT]
  interval_cases k <;> simp

/-- `DecodeGroup` on the symbols of four values. -/
theorem decodeGroup_sym {al : Alphabet} (hw : al.wf = true) (v0 v1 v2 v3 : UInt2) :
    decodeGroup al ⟨al.sym v0, al.sym v1, al.sym v2, al.sym v3⟩ = .ok (v0 ++ v1 ++ v2 ++ v3) := by
  rw [decodeGroup_ok (codec_sym hw v0) (codec_sym hw v1) (codec_sym hw v2) (codec_sym hw v3),
    accumulate_group_eq_append]

/-- Settles O20: the group decodes to the byte of its bit pairs, with which `Decoding` goes on to `Writing`. -/
theorem legalGroupDecodesToWriting : Obligations.LegalGroupDecodesToWriting := by
  intro s v0 v1 v2 v3 hp hw
  have hal : s.params.alphabet.wf = true := (Bool.and_eq_true_iff.1 hw).1
  rw [exec, execDecodeGroup, inPhase_here _ hp rfl, decodeGroup_sym hal]
  rfl

end Sys2Proof.Machine
end

section
/-! SUPPORT. The responses that keep the loop going: a full read (42_stream_loop.md R77) and an accepted write (R83). -/

namespace Sys2Proof.Machine

/-- Settles O23: in `Reading` the full read is in its own phase, and its meaning is R77's. -/
theorem fullReadFillsTheGroup : Obligations.FullReadFillsTheGroup := by
  intro s b0 b1 b2 b3 hp
  refine ⟨by simp [State.request, hp], ?_⟩
  rw [exec, execRdFull, inPhase_here _ hp rfl]
  rfl

/-- Settles O28: in `Writing` with a byte in `obuf` the response answers the write of that byte, and `Wrote(1)` is the
response that takes it. -/
theorem acceptedWriteOutputsTheByte : Obligations.AcceptedWriteOutputsTheByte := by
  intro s b hp hb
  refine ⟨?_, by simp⟩
  rw [exec, execWrOk, inPhase_here _ hp rfl]
  exact writeAnswered_next.2 ⟨b, hb, rfl⟩

end Sys2Proof.Machine
end

section
/-! SUPPORT. The invariant (10_state.md R29) at the start of a run, over every step, and in the rule's own words. -/

namespace Sys2Proof.Machine

/-- Settles O42: a step is one of the transitions, and each transition keeps the invariant. -/
theorem stepKeepsTheInvariant : Obligations.StepKeepsTheInvariant :=
  fun _ _ hs h => (step_transition h).keeps_inv hs

/-- Settles O41: the block as built has legal parameters, so reset is one more start. -/
theorem startMeetsTheInvariant : Obligations.StartMeetsTheInvariant :=
  ⟨fun _ inbox hp => inv_start inbox hp, inv_start [] config_params_wf⟩

/-- A buffer that holds a group has a value in every entry. -/
theorem entry_ne_none {b : GroupBuffer} (h : b.group ≠ none) (i : Fin 4) : b.entry i ≠ none := by
  obtain ⟨g, hg⟩ := Option.ne_none_iff_exists'.1 h
  rw [group_eq_some.1 hg, entry_full]
  simp

theorem terminal_eq_false_iff {p : Phase} :
    p.terminal = false ↔ p = .reading ∨ p = .decoding ∨ p = .writing := by
  cases p <;> simp [Phase.terminal]

/-- Settles O44: each clause is one of the invariant's. -/
theorem reachableStatesMeetTheStateInvariants : Obligations.ReachableStatesMeetTheStateInvariants := by
  intro s h
  have hs := reachable_inv h
  exact ⟨fun hp => entry_ne_none (hs.decoding_has_group hp), hs.writing_has_byte, hs.failed_iff_cause,
    hs.exit_none_iff.trans terminal_eq_false_iff, fun hp => hs.settled (.inl hp)⟩

end Sys2Proof.Machine
end

section
/-! SUPPORT. Words and operations (30_encoding.md R48 to R60): the decoder inverts the encoder. -/

namespace Sys2Proof.Machine

/-- A well-formed symbol operation is the one its byte decodes to (R52, R53): an injective alphabet has no earlier
match. -/
theorem decodeSym_of_wf {al : Alphabet} {i : Instr} {b : Byte} (hal : al.wf = true) (hi : i.wf al = true)
    (he : encode i = .sym8 b) : decodeSym al b = i := by
  simp only [Alphabet.wf, bne_iff_ne, Bool.and_eq_true] at hal
  obtain ⟨⟨⟨⟨⟨hab, hac⟩, had⟩, hbc⟩, hbd⟩, hcd⟩ := hal
  cases i with
  | symV0 | symV1 | symV2 | symV3 =>
    cases he
    obtain rfl := beq_iff_eq.1 hi
    simp [decodeSym, hab.symm, hac.symm, had.symm, hbc.symm, hbd.symm, hcd.symm]
  | symInvalid =>
    cases he
    have hb : b ∉ al.legal := by simpa [Instr.wf] using hi
    simp only [Alphabet.legal, List.mem_cons, List.not_mem_nil, or_false, not_or] at hb
    simp [decodeSym, hb]
  | decodeGroup | rdFull | rdShort1 | rdShort2 | rdShort3 | rdEof | rdErr | wrOk | wrZero | wrOver | wrErr | abort =>
    cases he

/-- Of the operations whose word is `b`, the well-formed one is the one the decoder gives (R60). -/
theorem wf_iff_eq_decodeSym {al : Alphabet} {i : Instr} {b : Byte} (hal : al.wf = true) (he : encode i = .sym8 b) :
    i.wf al = true ↔ i = decodeSym al b :=
  ⟨fun hi => (decodeSym_of_wf hal hi he).symm, fun h => h ▸ (Laws.WordOf.of_sym8 al b).1⟩

/-- A `WRRSP` word of a count from 2 to 7 is that of `WR_OVER` (R55). -/
theorem decodeWrite_over : ∀ n : BitVec 3, 2 ≤ n.toNat → decodeWrite (0#1 ++ n) = .ok (.wrOver n) := by
  decide

/-- Settles O1: symbols by R52's map, a group by its packing, responses by their descriptors. -/
theorem decodeOfEncodeIsIdentity : Obligations.DecodeOfEncodeIsIdentity := by
  intro al i hal hi
  cases i with
  | symV0 | symV1 | symV2 | symV3 | symInvalid => exact congrArg Except.ok (decodeSym_of_wf hal hi rfl)
  | decodeGroup => simp [encode, decode]
  | wrOver n => exact decodeWrite_over n (of_decide_eq_true hi)
  | rdFull | rdShort1 | rdShort2 | rdShort3 | rdEof | rdErr | wrOk | wrZero | wrErr | abort => rfl

/-- The operation a byte decodes to is one of the five symbol operations on it. -/
theorem decodeSym_mem (al : Alphabet) (b : Byte) :
    decodeSym al b ∈ [Instr.symV0 b, .symV1 b, .symV2 b, .symV3 b, .symInvalid b] := by
  unfold decodeSym
  split_ifs <;> simp

/-- A read response with its own count decodes to an operation of `Reading` (R54). -/
theorem decodeRead_data (data : List Byte) (h : data.length ≤ 4) :
    ∃ i, decodeRead (BitVec.ofNat 4 data.length) data = .ok i ∧ phaseOf i = some .reading := by
  match data, h with
  | [], _ => exact ⟨.rdEof, rfl, rfl⟩
  | [b0], _ => exact ⟨.rdShort1 b0, rfl, rfl⟩
  | [b0, b1], _ => exact ⟨.rdShort2 b0 b1, rfl, rfl⟩
  | [b0, b1, b2], _ => exact ⟨.rdShort3 b0 b1 b2, rfl, rfl⟩
  | [b0, b1, b2, b3], _ => exact ⟨.rdFull b0 b1 b2 b3, rfl, rfl⟩

/-- A write response with its saturated count decodes to an operation of `Writing`, and to `WR_OK` at count 1 only
(R55). -/
theorem decodeWrite_count {n : Nat} (h : n ≤ 7) : ∃ i, decodeWrite (BitVec.ofNat 4 n) = .ok i ∧
    phaseOf i = some .writing ∧ (i = .wrOk ↔ n = 1) := by
  match n, h with
  | 0, _ => exact ⟨.wrZero, rfl, rfl, by decide⟩
  | 1, _ => exact ⟨.wrOk, rfl, rfl, by decide⟩
  | n + 2, h =>
    refine ⟨.wrOver (BitVec.ofNat 3 (n + 2)), ?_, rfl, by simp⟩
    have hn : n ≤ 5 := by omega
    have hw : BitVec.ofNat 4 (n + 2) = 0#1 ++ BitVec.ofNat 3 (n + 2) := by interval_cases n <;> rfl
    rw [hw]
    exact decodeWrite_over _ (by rw [BitVec.toNat_ofNat]; omega)

/-- Settles O2: the byte's operation is the one the decoder gives; a response's follows its count. -/
theorem everyContractWordIsOneOperation : Obligations.EveryContractWordIsOneOperation := by
  refine ⟨fun al b hal => ⟨decodeSym al b, decodeSym_mem al b, rfl, fun j hj => wf_iff_eq_decodeSym hal ?_⟩,
    fun _ => decodeRead_data, fun _ => rfl, fun al n => ?_, fun _ => rfl⟩
  · simp only [List.mem_cons, List.not_mem_nil, or_false] at hj
    obtain rfl | rfl | rfl | rfl | rfl := hj <;> rfl
  · obtain ⟨i, hi, hp, hok⟩ := decodeWrite_count (min_le_right n 7)
    exact ⟨i, hi, hp, hok.trans (by omega)⟩

/-- Settles O3: the two symbol words by R52's map, the others as they stand. -/
theorem wordsOfEachFormatDecode : Obligations.WordsOfEachFormatDecode := by
  intro al hal
  have hsym {i : Instr} {b : Byte} (hi : i.wf al = true) (he : encode i = .sym8 b) : decode al (.sym8 b) = .ok i :=
    congrArg Except.ok (decodeSym_of_wf hal hi he)
  exact ⟨hsym (by simp [Instr.wf]) rfl, hsym (by simp [Instr.wf]) rfl, rfl, rfl, rfl, rfl, rfl, rfl, rfl⟩

/-- A reserved `RDRSP` descriptor is rejected by name (R54, D10). -/
theorem decodeRead_reserved {desc : Descriptor} (data : List Byte)
    (h : 5 ≤ desc.toNat ∧ desc.toNat ≤ 7 ∨ 9 ≤ desc.toNat) :
    decodeRead desc data = .error (.readDescriptor desc) := by
  have hne {n : Nat} (hn : n ≤ 4 ∨ n = 8) : desc ≠ BitVec.ofNat 4 n := by
    rintro rfl
    rw [BitVec.toNat_ofNat] at h
    omega
  unfold decodeRead
  rw [if_neg (hne (.inl le_rfl)), if_neg (hne (.inl (by decide))), if_neg (hne (.inl (by decide))),
    if_neg (hne (.inl (by decide))), if_neg (hne (.inl (by decide))), if_neg (hne (.inr rfl))]

/-- A reserved `WRRSP` descriptor is rejected by name (R55, D11). -/
theorem decodeWrite_reserved : ∀ desc : Descriptor, 9 ≤ desc.toNat →
    decodeWrite desc = .error (.writeDescriptor desc) := by
  decide

theorem runWord_error {c : Code} {s : State} {e : DecodeError} (h : decode s.params.alphabet c = .error e) :
    runWord c s = .refused (.outsideContract e) := by
  simp [runWord, h]

/-- Settles O4: the step takes the action's word, which the decoder rejects. -/
theorem reservedDescriptorsAreRefused : Obligations.ReservedDescriptorsAreRefused := by
  refine ⟨fun s desc data rest hp hi hd => ?_, fun s desc rest hp hi hd => ?_⟩
  · rw [step_host hp hi]
    exact runWord_error (decodeRead_reserved data hd)
  · rw [step_host hp hi]
    exact runWord_error (decodeWrite_reserved desc hd)

end Sys2Proof.Machine
end

section
/-! SUPPORT. What a group decodes to (41_group_decoder.md R68 to R74): when it decodes, the byte it gives, and the lanes
of that byte. -/

namespace Sys2Proof.Machine

/-! When a group decodes. -/

/-- The loop of `DecodeGroup` gives a byte where every symbol left is legal. -/
theorem decodeFrom_legal {al : Alphabet} {bs : List Byte} (h : ∀ b ∈ bs, b ∈ al.legal) (i : Nat) (acc : Byte) :
    ∃ y, decodeFrom al i acc bs = .ok y := by
  induction bs generalizing i acc with
  | nil => exact ⟨acc, rfl⟩
  | cons b bs ih =>
    obtain ⟨hb, hbs⟩ := List.forall_mem_cons.1 h
    obtain ⟨v, hv, -⟩ | ⟨-, hbad⟩ := codec_cases al b
    · rw [decodeFrom, hv]
      exact ih hbs _ _
    · exact absurd hb hbad

/-- The loop stops with InvalidSymbol at the first symbol that is not legal (R71). -/
theorem decodeFrom_illegal {al : Alphabet} {bs : List Byte} (h : ∃ b ∈ bs, b ∉ al.legal) (i : Nat) (acc : Byte) :
    decodeFrom al i acc bs = .error .invalidSymbol := by
  induction bs generalizing i acc with
  | nil => simp at h
  | cons b bs ih =>
    obtain ⟨v, hv, hb⟩ | ⟨hbad, -⟩ := codec_cases al b
    · rw [decodeFrom, hv]
      exact ih (by simpa [hb] using h) _ _
    · rw [decodeFrom, hbad]

theorem decodeGroup_illegal {al : Alphabet} {g : Group} (h : ∃ b ∈ g.bytes, b ∉ al.legal) :
    decodeGroup al g = .error .invalidSymbol :=
  decodeFrom_illegal h _ _

/-- A group that decodes has legal symbols only. -/
theorem legal_of_decodeGroup {al : Alphabet} {g : Group} {y : Byte} (h : decodeGroup al g = .ok y) :
    ∀ b ∈ g.bytes, b ∈ al.legal := by
  by_contra hbad
  push Not at hbad
  rw [decodeGroup_illegal hbad] at h
  cases h

/-- A group fails with InvalidSymbol exactly when it has an illegal symbol (R72). -/
theorem decodeGroup_eq_error {al : Alphabet} {g : Group} :
    decodeGroup al g = .error .invalidSymbol ↔ ∃ b ∈ g.bytes, b ∉ al.legal := by
  refine ⟨fun herr => ?_, decodeGroup_illegal⟩
  by_contra hlegal
  push Not at hlegal
  obtain ⟨y, hy⟩ := decodeFrom_legal hlegal 0 0x00#8
  rw [show decodeGroup al g = .ok y from hy] at herr
  cases herr

/-- Settles O7: legal symbols give a byte, and an illegal one gives InvalidSymbol. -/
theorem groupDecodesOnlyWhole : Obligations.GroupDecodesOnlyWhole :=
  fun _ _ => ⟨⟨fun ⟨_, hy⟩ => legal_of_decodeGroup hy, fun h => decodeFrom_legal h _ _⟩, decodeGroup_eq_error⟩

/-- An alphabet is injective (R9) exactly when its four symbols, as a list, have no duplicate. -/
theorem alphabet_wf_iff_nodup {al : Alphabet} : al.wf = true ↔ al.legal.Nodup := by
  simp [Alphabet.wf, Alphabet.legal, and_assoc]

/-- Settles O6: `LEGAL` has four of the 256 bytes, and the illegal ones are the rest. -/
theorem illegalSymbolCountIs252 : Obligations.IllegalSymbolCountIs252 := by
  intro al hal
  have hlegal : al.legal.toFinset.card = 4 := List.toFinset_card_of_nodup (alphabet_wf_iff_nodup.1 hal)
  have hcompl : (Finset.univ.filter fun b : Byte => b ∉ al.legal) = al.legal.toFinsetᶜ := by ext b; simp
  rw [hcompl, Finset.card_compl, hlegal, Fintype.card_congr BitVec.equivFin.toEquiv, Fintype.card_fin]
  rfl

/-! The byte a group gives. -/

/-- A group decodes to a byte exactly when the codec answers for its symbols, and the byte is their values side by
side (R69). -/
theorem decodeGroup_eq_ok {al : Alphabet} {g : Group} {y : Byte} : decodeGroup al g = .ok y ↔
    ∃ v0 v1 v2 v3, codec al g.s0 = .ok v0 ∧ codec al g.s1 = .ok v1 ∧ codec al g.s2 = .ok v2 ∧
      codec al g.s3 = .ok v3 ∧ y = v0 ++ v1 ++ v2 ++ v3 := by
  constructor
  · intro h
    have hvalue {b : Byte} (hb : b ∈ g.bytes) : ∃ v, codec al b = .ok v := by
      obtain ⟨v, hv, -⟩ | ⟨-, hbad⟩ := codec_cases al b
      · exact ⟨v, hv⟩
      · exact absurd (legal_of_decodeGroup h b hb) hbad
    obtain ⟨v0, h0⟩ := hvalue (b := g.s0) (by simp [Group.bytes])
    obtain ⟨v1, h1⟩ := hvalue (b := g.s1) (by simp [Group.bytes])
    obtain ⟨v2, h2⟩ := hvalue (b := g.s2) (by simp [Group.bytes])
    obtain ⟨v3, h3⟩ := hvalue (b := g.s3) (by simp [Group.bytes])
    rw [decodeGroup_ok h0 h1 h2 h3, accumulate_group_eq_append] at h
    exact ⟨v0, v1, v2, v3, h0, h1, h2, h3, (Except.ok.inj h).symm⟩
  · rintro ⟨v0, v1, v2, v3, h0, h1, h2, h3, rfl⟩
    rw [decodeGroup_ok h0 h1 h2 h3, accumulate_group_eq_append]

/-- The lanes of four values side by side (30_encoding.md R50). -/
theorem lanes_append (v0 v1 v2 v3 : UInt2) :
    (v0 ++ v1 ++ v2 ++ v3).extractLsb' 6 2 = v0 ∧ (v0 ++ v1 ++ v2 ++ v3).extractLsb' 4 2 = v1 ∧
    (v0 ++ v1 ++ v2 ++ v3).extractLsb' 2 2 = v2 ∧ (v0 ++ v1 ++ v2 ++ v3).extractLsb' 0 2 = v3 := by
  refine ⟨?_, ?_, ?_, ?_⟩
  all_goals
    refine BitVec.eq_of_getLsbD_eq fun k hk => ?_
    simp only [BitVec.getLsbD_extractLsb', BitVec.getLsbD_append]
    interval_cases k <;> simp

/-- A byte is its four lanes side by side. -/
theorem append_lanes (y : Byte) :
    y.extractLsb' 6 2 ++ y.extractLsb' 4 2 ++ y.extractLsb' 2 2 ++ y.extractLsb' 0 2 = y := by
  refine BitVec.eq_of_getLsbD_eq fun k hk => ?_
  simp only [BitVec.getLsbD_extractLsb', BitVec.getLsbD_append]
  interval_cases k <;> simp

/-- The lanes below the first, above the last, and around the two in the middle, each as one field. -/
theorem fields_append (v0 v1 v2 v3 : UInt2) :
    (v0 ++ v1 ++ v2 ++ v3).extractLsb' 0 6 = v1 ++ v2 ++ v3 ∧ (v0 ++ v1 ++ v2 ++ v3).extractLsb' 0 4 = v2 ++ v3 ∧
    (v0 ++ v1 ++ v2 ++ v3).extractLsb' 4 4 = v0 ++ v1 ∧ (v0 ++ v1 ++ v2 ++ v3).extractLsb' 2 6 = v0 ++ v1 ++ v2 := by
  refine ⟨?_, ?_, ?_, ?_⟩
  all_goals
    refine BitVec.eq_of_getLsbD_eq fun k hk => ?_
    simp only [BitVec.getLsbD_extractLsb', BitVec.getLsbD_append]
    interval_cases k <;> simp

/-- Four values side by side, as a number. -/
theorem append_toNat (v0 v1 v2 v3 : UInt2) :
    (v0 ++ v1 ++ v2 ++ v3).toNat = v0.toNat * 64 + v1.toNat * 16 + v2.toNat * 4 + v3.toNat := by
  have happ {n : Nat} (x : BitVec n) (v : UInt2) : (x ++ v).toNat = x.toNat * 4 + v.toNat := by
    rw [BitVec.toNat_append, ← Nat.shiftLeft_add_eq_or_of_lt v.isLt, Nat.shiftLeft_eq]
  rw [happ, happ, happ]
  omega

/-- Settles O8: the byte is the four values side by side. -/
theorem groupDecodeClosedForm : Obligations.GroupDecodeClosedForm :=
  fun _ _ v0 v1 v2 v3 h0 h1 h2 h3 => ⟨_, decodeGroup_eq_ok.2 ⟨v0, v1, v2, v3, h0, h1, h2, h3, rfl⟩,
    append_toNat v0 v1 v2 v3, lanes_append v0 v1 v2 v3⟩

/-- A byte the codec gives a value is that value's symbol. -/
theorem sym_of_codec {al : Alphabet} {b : Byte} {v : UInt2} (h : codec al b = .ok v) : b = al.sym v := by
  unfold codec at h
  split_ifs at h with h0 h1 h2 h3 <;> cases h <;> assumption

/-- Settles O10: a group that decodes has the symbols of its byte's lanes, and no others. -/
theorem groupDecodeIsBijective : Obligations.GroupDecodeIsBijective := by
  refine fun al hal => ⟨fun y => (decodeGroup_sym hal _ _ _ _).trans (congrArg Except.ok (append_lanes y)),
    fun g y h => ?_⟩
  obtain ⟨v0, v1, v2, v3, h0, h1, h2, h3, rfl⟩ := decodeGroup_eq_ok.1 h
  simp only [groupOf, lanes_append, ← sym_of_codec h0, ← sym_of_codec h1, ← sym_of_codec h2, ← sym_of_codec h3]

/-- Settles O11: the byte keeps the values of the symbols that stay. -/
theorem groupDecodeLanesAreIndependent : Obligations.GroupDecodeLanesAreIndependent := by
  intro al g y v hal h
  have hv := codec_sym hal v
  obtain ⟨v0, v1, v2, v3, h0, h1, h2, h3, rfl⟩ := decodeGroup_eq_ok.1 h
  refine ⟨⟨_, decodeGroup_eq_ok.2 ⟨v, v1, v2, v3, hv, h1, h2, h3, rfl⟩, ?_⟩,
    ⟨_, decodeGroup_eq_ok.2 ⟨v0, v, v2, v3, h0, hv, h2, h3, rfl⟩, ?_⟩,
    ⟨_, decodeGroup_eq_ok.2 ⟨v0, v1, v, v3, h0, h1, hv, h3, rfl⟩, ?_⟩,
    ⟨_, decodeGroup_eq_ok.2 ⟨v0, v1, v2, v, h0, h1, h2, hv, rfl⟩, ?_⟩⟩ <;>
    simp only [lanes_append, fields_append, and_self]

/-- Settles O17: at each of the four positions the two bits of the value lie in the position's lane. -/
theorem symbolContributesItsOwnBits : Obligations.SymbolContributesItsOwnBits := by
  unfold Obligations.SymbolContributesItsOwnBits
  decide

end Sys2Proof.Machine
end

section
/-! SUPPORT. Which operation a step runs, and where there is none (42_stream_loop.md R88 to R90, 00_scope.md R13). -/

namespace Sys2Proof.Machine

/-- Settles O12: each fetch gives the word of the operation named. -/
theorem stepRunsTheDecodedOperation : Obligations.StepRunsTheDecodedOperation := by
  refine ⟨fun s a rest i hp hi hd => ?_, fun s g hp hn hu hg => step_decode_group hp hn hu hg,
    fun s a p sym i hp hn hu he hd => ?_, fun s rest hp hi => ?_⟩
  · exact (step_host hp hi).trans (runWord_ok hd)
  · rw [step_decode_symbol hp hn hu he, show decodeSym s.params.alphabet sym = i from Except.ok.inj hd]
  · rw [step_word (fetch_early hp hi), runWord_ok rfl]

theorem writeAnswered_ne_waiting (s : State) (r : WriteResponse) (k : State → State) :
    s.writeAnswered r k ≠ .fault .waitingForHost := by
  unfold State.writeAnswered
  cases s.obuf <;> simp

/-- An operation that has a phase is guarded by it, and behind the guard it never waits. -/
theorem exec_eq_inPhase {i : Instr} {p : Phase} (h : phaseOf i = some p) (s : State) :
    ∃ r, exec i s = s.inPhase p r ∧ r ≠ .fault .waitingForHost := by
  cases i with
  | symV0 | symV1 | symV2 | symV3 | symInvalid | decodeGroup | rdFull | rdShort1 | rdShort2 | rdShort3 | rdEof | rdErr =>
    obtain rfl := Option.some.inj h
    exact ⟨_, rfl, nofun⟩
  | wrOk | wrZero | wrOver | wrErr =>
    obtain rfl := Option.some.inj h
    exact ⟨_, rfl, writeAnswered_ne_waiting _ _ _⟩
  | abort => cases h

/-- The termination is the one operation that belongs to every phase. -/
theorem eq_abort_of_phaseOf {i : Instr} (h : phaseOf i = none) : i = .abort := by
  cases i with
  | abort => rfl
  | symV0 | symV1 | symV2 | symV3 | symInvalid | decodeGroup | rdFull | rdShort1 | rdShort2 | rdShort3 | rdEof | rdErr
  | wrOk | wrZero | wrOver | wrErr => cases h

/-- Settles O14: the guard of the operation's own phase refuses it. -/
theorem operationOfAnotherPhaseIsRefused : Obligations.OperationOfAnotherPhaseIsRefused := by
  intro i s p hi hp ht
  obtain ⟨r, hr, -⟩ := exec_eq_inPhase hi s
  rw [hr, inPhase_elsewhere r hp ht]

/-- No operation has a meaning in a terminal phase (R88). -/
theorem exec_terminal (i : Instr) {s : State} (ht : s.phase.terminal = true) : exec i s = .fault .terminalPhase := by
  cases hi : phaseOf i with
  | none =>
    rw [eq_abort_of_phaseOf hi]
    exact if_pos ht
  | some p =>
    obtain ⟨r, hr, -⟩ := exec_eq_inPhase hi s
    rw [hr, inPhase_terminal p r ht]

/-- No operation waits: the wait is in the fetch alone (R89). -/
theorem exec_ne_waiting (i : Instr) (s : State) : exec i s ≠ .fault .waitingForHost := by
  cases hi : phaseOf i with
  | none =>
    rw [eq_abort_of_phaseOf hi, exec, execAbort]
    split_ifs <;> simp
  | some p =>
    obtain ⟨r, hr, hw⟩ := exec_eq_inPhase hi s
    rw [hr, State.inPhase]
    split_ifs
    · simp
    · exact hw
    · simp

theorem runWord_ne_waiting (c : Code) (s : State) : runWord c s ≠ .fault .waitingForHost := by
  unfold runWord
  split
  · exact exec_ne_waiting _ _
  · simp

theorem fetchHost_eq_waiting {s : State} : s.fetchHost = .stuck .waitingForHost ↔ s.inbox = [] := by
  unfold State.fetchHost
  cases s.inbox <;> simp

theorem fetchGroup_ne_waiting (s : State) : s.fetchGroup ≠ .stuck .waitingForHost := by
  unfold State.fetchGroup
  split <;> split <;> simp

/-- Only `Reading` and `Writing` wait, and only for a host that has not acted. -/
theorem fetch_eq_waiting {s : State} : s.fetch = .stuck .waitingForHost ↔
    (s.phase = .reading ∨ s.phase = .writing) ∧ s.inbox = [] := by
  cases hp : s.phase with
  | reading => rw [fetch_host (.inl hp), fetchHost_eq_waiting]; simp
  | writing => rw [fetch_host (.inr hp), fetchHost_eq_waiting]; simp
  | decoding =>
    obtain ⟨rest, hi⟩ | hn := early_or_not s
    · simp [fetch_early hp hi]
    · simp [fetch_group hp hn, fetchGroup_ne_waiting]
  | done | failed | aborted => simp [fetch_terminal (s := s) (by rw [hp]; rfl)]

theorem step_eq_waiting {s : State} : step s = .fault .waitingForHost ↔
    (s.phase = .reading ∨ s.phase = .writing) ∧ s.inbox = [] := by
  rw [← fetch_eq_waiting, step]
  cases s.fetch with
  | word c t => simp [runWord_ne_waiting]
  | stuck f => simp

/-- The request each phase waits on (20_memory.md R34, R35). -/
theorem request_reading {s : State} (hp : s.phase = .reading) : s.request = some (.inRead 4) := by
  simp [State.request, hp]

theorem request_writing {s : State} {b : Byte} (hp : s.phase = .writing) (hb : s.obuf = some b) :
    s.request = some (.outWrite b) := by
  simp [State.request, hp, hb]

theorem request_none {s : State} (hp : s.phase = .decoding ∨ s.phase.terminal = true) : s.request = none := by
  unfold State.request
  cases h : s.phase <;> simp [h, Phase.terminal] at hp ⊢

/-- Settles O40: the three phases that ask for something or nothing, one by one. -/
theorem requestOfEachPhase : Obligations.RequestOfEachPhase :=
  fun _ => ⟨request_reading, fun _ => request_writing, request_none⟩

/-- Settles O13: a terminal phase fetches nothing, and the wait is that of the fetch. -/
theorem noStepWhenWaitingOrTerminal : Obligations.NoStepWhenWaitingOrTerminal :=
  ⟨fun _ ht => step_stuck (fetch_terminal ht), fun i _ => exec_terminal i, fun _ ht => request_none (.inr ht),
    fun _ => step_eq_waiting⟩

/-- Settles O38: reset is the start of a run before a host that has not acted. -/
theorem resetValues : Obligations.ResetValues :=
  ⟨rfl, rfl, rfl, rfl, rfl, rfl, rfl, request_reading rfl, step_eq_waiting.2 ⟨.inl rfl, rfl⟩⟩

/-- Settles O39: the codes as the model defines them. -/
theorem phaseAndCauseCodes : Obligations.PhaseAndCauseCodes := ⟨rfl, rfl⟩

/-- A write response that comes where no byte waits stops (R13). -/
theorem writeAnswered_unwritten {s : State} (r : WriteResponse) (k : State → State) (hb : s.obuf = none) :
    s.writeAnswered r k = .fault (.readUnwritten .obuf) := by
  simp [State.writeAnswered, hb]

/-- The atomic decode needs a whole group (R13). -/
theorem step_no_group {s : State} (hp : s.phase = .decoding) (hn : s.noEarlyAbort) (hu : s.underway = none)
    (hg : s.grp.group = none) : step s = .fault (.readUnwritten .grp) :=
  step_stuck (by simp [fetch_group hp hn, State.fetchGroup, hu, hg])

/-- Settles O15: the write response finds no byte, the fetch of `Decoding` no group or no entry. -/
theorem readingAnUnwrittenElementFaults : Obligations.ReadingAnUnwrittenElementFaults := by
  refine ⟨fun s n hp hb i hi => ?_, fun s hp hn hu hg => step_no_group hp hn hu hg,
    fun s a p hp hn hu he => step_stuck ?_⟩
  · simp only [List.mem_cons, List.not_mem_nil, or_false] at hi
    obtain rfl | rfl | rfl | rfl := hi <;>
      exact (inPhase_here _ hp rfl).trans (writeAnswered_unwritten _ _ hb)
  · simp [fetch_group hp hn, State.fetchGroup, hu, he]

end Sys2Proof.Machine
end

section
/-! SUPPORT. The symbol operations and the group operation in `Decoding` (40_codec.md R62 to R66, 41_group_decoder.md
R68, 42_stream_loop.md R79, R80), and the loop against the atomic step (92_eei_decisions.md D8). -/

namespace Sys2Proof.Machine

/-- A failed decode discards the accumulator and enters `Failed` (R79). -/
theorem decoded_error (s : State) (c : Cause) : s.decoded (.error c) =
    ({ s with acc := none, pos := none } : State).failedWith c [] (Config.diagnosticText s.draws) :=
  raise_eq _ _

theorem decoded_ok (s : State) (y : Byte) : s.decoded (.ok y) =
    { s with acc := none, pos := none, obuf := some y, phase := .writing } := rfl

/-- Settles O18: it is the end of a failed decode. -/
theorem invalidSymbolFailsTheDecode : Obligations.InvalidSymbolFailsTheDecode := by
  intro s sym hp
  refine ⟨Config.diagnosticText s.draws, ?_⟩
  rw [exec, execSymInvalid, inPhase_here _ hp rfl, decoded_error]

/-- Settles O21: `DecodeGroup` gives InvalidSymbol, which ends the decode. -/
theorem illegalGroupFails : Obligations.IllegalGroupFails := by
  intro s g hp hbad
  refine ⟨Config.diagnosticText s.draws, ?_⟩
  rw [exec, execDecodeGroup, inPhase_here _ hp rfl, decodeGroup_illegal hbad, decoded_error]

/-- What a legal symbol does with a decode under way, the last position apart: there its bits need no shift. -/
theorem decodeSymbol_goes_on {s : State} (v : UInt2) {a : Byte} {p : Fin 4} (ha : s.acc = some a)
    (hp : s.pos = some p) : s.decodeSymbol v =
      if p = 3 then { s with acc := none, pos := none, obuf := some (a ||| zext8 v), phase := .writing }
      else { s with acc := some (a ||| zext8 v <<< (6 - 2 * p.val)), pos := some (p + 1) } := by
  rw [decodeSymbol_underway (underway_some.2 ⟨ha, hp⟩), contribute_eq]
  by_cases h : p = 3
  · simp [h, accumulate, contribution]
  · simp [h, accumulate, contribution]

/-- What it does with none under way: the accumulator is zero before it. -/
theorem decodeSymbol_begins {s : State} (v : UInt2) (h : s.acc = none ∨ s.pos = none) :
    s.decodeSymbol v = { s with acc := some (zext8 v <<< 6), pos := some 1 } := by
  rw [decodeSymbol_starts (underway_none.2 h)]
  simp [accumulate, contribution]

/-- Settles O16: the four operations differ in the value they decode. -/
theorem legalSymbolsAccumulate : Obligations.LegalSymbolsAccumulate := by
  intro s sym hp iv hiv
  obtain ⟨v, hbits, hexec⟩ : ∃ v, iv.2 = zext8 v ∧ exec iv.1 s = .next (s.decodeSymbol v) := by
    simp only [List.mem_cons, List.not_mem_nil, or_false] at hiv
    obtain rfl | rfl | rfl | rfl := hiv <;> exact ⟨_, rfl, inPhase_here _ hp rfl⟩
  rw [hbits, hexec]
  refine ⟨fun a p ha hpos => ?_, fun h => by rw [decodeSymbol_begins v h]⟩
  rw [decodeSymbol_goes_on v ha hpos]
  split_ifs <;> rfl

/-! The loop of `DecodeGroup` symbol by symbol. -/

/-- The symbols left at a position: the position's own, then those of the next. -/
theorem drop_eq_entry_cons {g : Group} {i : Fin 4} {sym : Byte} (he : (GroupBuffer.full g).entry i = some sym) :
    g.bytes.drop i = sym :: g.bytes.drop (i + 1) := by
  rw [entry_full, List.getElem?_eq_some_iff] at he
  obtain ⟨hlt, rfl⟩ := he
  exact List.drop_eq_getElem_cons hlt

/-- A legal symbol moves the loop to the next position (R68). -/
theorem decodeFrom_entry {al : Alphabet} {g : Group} {i : Fin 4} {sym : Byte} {v : UInt2} (a : Byte)
    (he : (GroupBuffer.full g).entry i = some sym) (hc : codec al sym = .ok v) :
    decodeFrom al i a (g.bytes.drop i) = decodeFrom al (i + 1) (accumulate a i v) (g.bytes.drop (i + 1)) := by
  rw [drop_eq_entry_cons he, decodeFrom, hc]

/-- An illegal symbol ends the loop (R71). -/
theorem decodeFrom_entry_illegal {al : Alphabet} {g : Group} {i : Fin 4} {sym : Byte} {c : Cause} (a : Byte)
    (he : (GroupBuffer.full g).entry i = some sym) (hc : codec al sym = .error c) :
    decodeFrom al i a (g.bytes.drop i) = .error c := by
  rw [drop_eq_entry_cons he, decodeFrom, hc]

/-- The position after one that is not the last. -/
theorem val_succ_of_ne_last {i : Fin 4} (h : i ≠ 3) : (i + 1).val = i.val + 1 :=
  Fin.val_add_one_of_lt (Fin.lt_last_iff_ne_last.2 h)

/-- The step of a decode under way at a legal symbol. -/
theorem step_symbol {s : State} {a : Byte} {i : Fin 4} {sym : Byte} {v : UInt2} (hp : s.phase = .decoding)
    (hn : s.noEarlyAbort) (hu : s.underway = some (a, i)) (he : s.grp.entry i = some sym)
    (hc : codec s.params.alphabet sym = .ok v) : step s = .next (s.contribute v a i) := by
  rw [step_decode_symbol hp hn hu he, exec_decodeSym, inPhase_here _ hp rfl, hc, ← decodeSymbol_underway hu]

/-- The step of a decode under way at an illegal symbol. -/
theorem step_symbol_illegal {s : State} {a : Byte} {i : Fin 4} {sym : Byte} {c : Cause} (hp : s.phase = .decoding)
    (hn : s.noEarlyAbort) (hu : s.underway = some (a, i)) (he : s.grp.entry i = some sym)
    (hc : codec s.params.alphabet sym = .error c) : step s = .next (s.decoded (.error c)) := by
  rw [step_decode_symbol hp hn hu he, exec_decodeSym, inPhase_here _ hp rfl, hc]

/-- From position `i` with accumulator `a`, at most one step for each symbol left comes to the state in which the whole
decode ends. -/
theorem symbolSteps_reach {s : State} {g : Group} (hp : s.phase = .decoding) (hn : s.noEarlyAbort)
    (hg : s.grp = .full g) (n : Nat) (i : Fin 4) (a : Byte) (hi : i.val + n = 4) :
    ∃ k, k ≤ n ∧ runFor k { s with acc := some a, pos := some i } =
      .next (s.decoded (decodeFrom s.params.alphabet i a (g.bytes.drop i))) := by
  induction n generalizing i a with
  | zero => exact absurd hi (by omega)
  | succ n ih =>
    obtain ⟨sym, he⟩ := Option.ne_none_iff_exists'.1 (entry_ne_none (b := .full g) (by simp) i)
    have hes : s.grp.entry i = some sym := by rw [hg, he]
    obtain ⟨v, hv, -⟩ | ⟨hv, -⟩ := codec_cases s.params.alphabet sym
    · have hstep := step_symbol (s := { s with acc := some a, pos := some i }) hp hn rfl hes hv
      rw [decodeFrom_entry a he hv]
      by_cases hlast : i = 3
      · subst hlast
        exact ⟨1, by omega, (runFor_succ hstep).2 rfl⟩
      · rw [contribute_eq, if_neg hlast] at hstep
        obtain ⟨k, hk, hrun⟩ := ih (i + 1) (accumulate a i v) (by rw [val_succ_of_ne_last hlast]; omega)
        rw [val_succ_of_ne_last hlast] at hrun
        exact ⟨k + 1, by omega, (runFor_succ hstep).2 hrun⟩
    · have hstep := step_symbol_illegal (s := { s with acc := some a, pos := some i }) hp hn rfl hes hv
      rw [decodeFrom_entry_illegal a he hv]
      exact ⟨1, by omega, (runFor_succ hstep).2 rfl⟩

/-- A step of an idle block in `Decoding` is the atomic decode of the group in hand. -/
theorem step_decoding_next {s t : State} (hp : s.phase = .decoding) (hidle : s.Idle) (hn : s.noEarlyAbort)
    (h : step s = .next t) : ∃ g, s.grp = .full g ∧ t = s.decoded (decodeGroup s.params.alphabet g) := by
  cases hg : s.grp.group with
  | none =>
    rw [step_no_group hp hn hidle.underway hg] at h
    cases h
  | some g =>
    rw [step_decode_group hp hn hidle.underway hg, exec, execDecodeGroup, inPhase_here _ hp rfl] at h
    cases h
    exact ⟨g, group_eq_some.1 hg, rfl⟩

/-- Settles O19: the loop from position 0 with accumulator zero is `DecodeGroup`. -/
theorem symbolStepsReachTheGroupStep : Obligations.SymbolStepsReachTheGroupStep := by
  intro s t hp hidle hn h
  obtain ⟨g, hg, rfl⟩ := step_decoding_next hp hidle hn h
  exact symbolSteps_reach hp hn hg 4 0 0x00#8 rfl

/-! The frame. -/

/-- Everything the operations of `Decoding` can answer: the decoded byte, one more symbol, or the failure. -/
def DecodingAnswer (s t : State) : Prop :=
  (∃ y, t = { s with acc := none, pos := none, obuf := some y, phase := .writing }) ∨
  (∃ a i, t = { s with acc := some a, pos := some i }) ∨
  ∃ c text, t = ({ s with acc := none, pos := none } : State).failedWith c [] text

theorem decoded_answer (s : State) (r : Except Cause Byte) : DecodingAnswer s (s.decoded r) := by
  cases r with
  | ok y => exact .inl ⟨y, rfl⟩
  | error c => exact .inr (.inr ⟨c, _, decoded_error s c⟩)

theorem decodeSymbol_answer (s : State) (v : UInt2) : DecodingAnswer s (s.decodeSymbol v) := by
  obtain ⟨a, i, heq, -⟩ := decodeSymbol_cases s v
  rw [heq, contribute_eq]
  split_ifs
  · exact .inl ⟨_, rfl⟩
  · exact .inr (.inl ⟨_, _, rfl⟩)

theorem exec_decoding_next {i : Instr} {s t : State} (hi : phaseOf i = some .decoding) (h : exec i s = .next t) :
    DecodingAnswer s t := by
  cases i with
  | symV0 | symV1 | symV2 | symV3 =>
    obtain ⟨-, ht⟩ := (inPhase_next (p := .decoding) rfl).1 h
    cases ht
    exact decodeSymbol_answer s _
  | symInvalid | decodeGroup =>
    obtain ⟨-, ht⟩ := (inPhase_next (p := .decoding) rfl).1 h
    cases ht
    exact decoded_answer s _
  | rdFull | rdShort1 | rdShort2 | rdShort3 | rdEof | rdErr | wrOk | wrZero | wrOver | wrErr | abort => cases hi

/-- Settles O22: each answer shows what it leaves. -/
theorem frameOfDecodingOperations : Obligations.FrameOfDecodingOperations := by
  intro i s t hi h
  obtain ⟨y, rfl⟩ | ⟨a, p, rfl⟩ | ⟨c, text, rfl⟩ := exec_decoding_next hi h <;> simp

end Sys2Proof.Machine
end

section
/-! SUPPORT. The host's responses and its termination (42_stream_loop.md R77 to R86, 60_exceptions.md R99): the next
state of each, and the frames. -/

namespace Sys2Proof.Machine

/-- A failing read response in `Reading` (R78, R81). -/
theorem inPhase_readFails {s : State} (hp : s.phase = .reading) (r : ReadResponse) (c : Cause) :
    s.inPhase .reading (.next (s.readFails r c)) =
      .next (s.failedWith c [.read r] (Config.diagnosticText s.draws)) := by
  rw [inPhase_here _ hp rfl, readFails_eq]

/-- Settles O24: each of the three is a failing read. -/
theorem shortReadFailsTruncated : Obligations.ShortReadFailsTruncated :=
  fun _ _ _ _ hp => ⟨⟨_, inPhase_readFails hp _ _⟩, ⟨_, inPhase_readFails hp _ _⟩, ⟨_, inPhase_readFails hp _ _⟩⟩

/-- Settles O26: a read error is a failing read too. -/
theorem readErrorFails : Obligations.ReadErrorFails :=
  fun _ hp => ⟨_, inPhase_readFails hp _ _⟩

/-- Settles O25: the response and the status that stands after it are the two events. -/
theorem endOfStreamIsDone : Obligations.EndOfStreamIsDone := by
  intro s hp
  rw [exec, execRdEof, inPhase_here _ hp rfl]
  simp [State.log, State.logStatus]

/-- A failing write response in `Writing` (R84, R85). -/
theorem inPhase_writeFails {s : State} {b : Byte} (hp : s.phase = .writing) (hb : s.obuf = some b)
    (r : WriteResponse) : s.inPhase .writing (s.writeAnswered r fun t => t.raise .writeFault) =
      .next (s.failedWith .writeFault [.write b r] (Config.diagnosticText s.draws)) := by
  rw [inPhase_here _ hp rfl, writeAnswered_next]
  exact ⟨b, hb, (raise_log_eq ..).symm⟩

/-- Settles O29: a count other than 1 takes no byte. -/
theorem wrongWriteCountFails : Obligations.WrongWriteCountFails :=
  fun _ _ _ hp hb => ⟨⟨_, inPhase_writeFails hp hb _⟩, fun _ => ⟨_, inPhase_writeFails hp hb _⟩,
    fun _ _ _ hm => by simp [hm]⟩

/-- Settles O30: a write error takes no byte. -/
theorem writeErrorFails : Obligations.WriteErrorFails :=
  fun _ _ hp hb => ⟨_, inPhase_writeFails hp hb _, by simp⟩

/-- Settles O32: the termination's own events are those of the write it leaves unanswered. -/
theorem terminationAborts : Obligations.TerminationAborts := by
  intro s ht
  obtain ⟨evs, hev, hcase⟩ := abandonWrite_eq s
  refine ⟨Config.abortExit s.draws, evs, ?_, ?_⟩
  · rw [exec, execAbort, ht, if_neg Bool.false_ne_true, hev]
    rfl
  · obtain h | ⟨b, taken, hp, hb, rfl⟩ := hcase
    · exact .inl h
    · exact .inr ⟨b, taken, hp, hb, rfl, by cases taken <;> rfl⟩

/-! The frames. -/

/-- Everything the read responses can answer: the group in hand, the clean end, or the failure. -/
def ReadAnswer (s t : State) : Prop :=
  (∃ g, t = { s.log (.read (.data (Group.bytes g))) with grp := .full g, phase := .decoding }) ∨
  t = { s.log (.read (.data [])) with exit := some 0, phase := .done }.logStatus ∨
  ∃ r c text, t = s.failedWith c [.read r] text

theorem exec_reading_next {i : Instr} {s t : State} (hi : phaseOf i = some .reading) (h : exec i s = .next t) :
    ReadAnswer s t := by
  cases i with
  | rdFull b0 b1 b2 b3 =>
    obtain ⟨-, ht⟩ := (inPhase_next (p := .reading) rfl).1 h
    cases ht
    exact .inl ⟨⟨b0, b1, b2, b3⟩, rfl⟩
  | rdEof =>
    obtain ⟨-, ht⟩ := (inPhase_next (p := .reading) rfl).1 h
    cases ht
    exact .inr (.inl rfl)
  | rdShort1 | rdShort2 | rdShort3 | rdErr =>
    obtain ⟨-, ht⟩ := (inPhase_next (p := .reading) rfl).1 h
    cases ht
    exact .inr (.inr ⟨_, _, _, readFails_eq ..⟩)
  | symV0 | symV1 | symV2 | symV3 | symInvalid | decodeGroup | wrOk | wrZero | wrOver | wrErr | abort => cases hi

/-- Settles O27: each answer shows what it leaves. -/
theorem frameOfReadResponses : Obligations.FrameOfReadResponses := by
  intro i s t hi h
  obtain ⟨g, rfl⟩ | rfl | ⟨r, c, text, rfl⟩ := exec_reading_next hi h <;> simp [Phase.terminal]

/-- Everything the write responses can answer: the byte is output, or the failure. -/
def WriteAnswer (s t : State) : Prop :=
  ∃ b r, t = { s.log (.write b r) with phase := .reading } ∨ ∃ text, t = s.failedWith .writeFault [.write b r] text

theorem exec_writing_next {i : Instr} {s t : State} (hi : phaseOf i = some .writing) (h : exec i s = .next t) :
    WriteAnswer s t := by
  cases i with
  | wrOk =>
    obtain ⟨-, ht⟩ := (inPhase_next (p := .writing) rfl).1 h
    obtain ⟨b, -, rfl⟩ := writeAnswered_next.1 ht
    exact ⟨b, _, .inl rfl⟩
  | wrZero | wrOver | wrErr =>
    obtain ⟨-, ht⟩ := (inPhase_next (p := .writing) rfl).1 h
    obtain ⟨b, -, rfl⟩ := writeAnswered_next.1 ht
    exact ⟨b, _, .inr ⟨_, raise_log_eq ..⟩⟩
  | symV0 | symV1 | symV2 | symV3 | symInvalid | decodeGroup | rdFull | rdShort1 | rdShort2 | rdShort3 | rdEof | rdErr
  | abort => cases hi

/-- Settles O31: each answer shows what it leaves. -/
theorem frameOfWriteResponses : Obligations.FrameOfWriteResponses := by
  intro i s t hi h
  obtain ⟨b, r, rfl | ⟨text, rfl⟩⟩ := exec_writing_next hi h <;> simp

end Sys2Proof.Machine
end

section
/-! SUPPORT. What every step does to the phase, the registers, the history and the parameters (10_state.md R17 to R22,
60_exceptions.md R94 to R98). Each rule is read off the transitions. -/

namespace Sys2Proof.Machine

/-- No exit value of a failure is zero (00_scope.md R10). -/
theorem failExit_ne_zero {f : FailExit} (hw : f.wf = true) (c : Cause) : f.of c ≠ 0 := by
  simp only [FailExit.wf, bne_iff_ne, Bool.and_eq_true] at hw
  obtain ⟨⟨⟨h1, h2⟩, h3⟩, h4⟩ := hw
  cases c <;> assumption

/-- What R94 to R98 ask of a step from `s` into `Failed`. -/
def EntersFailed (s t : State) : Prop :=
  ∃ c text evs, t.cause = some c ∧ t.exit = some (s.params.failExit.of c) ∧ (s.params.wf = true → t.exit ≠ some 0) ∧
    t.history = s.history ++ evs ++ [.diagnostic c text, .status .failed (some c) t.exit] ∧
    diagnostics evs = 0 ∧ output evs = [] ∧
    (c = .invalidSymbol ∧ s.phase = .decoding ∨ (c = .truncatedInput ∨ c = .readFault) ∧ s.phase = .reading ∨
      c = .writeFault ∧ s.phase = .writing)

/-- The failure entry of a state that agrees with `s` on parameters and history meets them, given the events and the
phase. -/
theorem failedWith_enters {s u : State} {c : Cause} {evs : List Event} {text : String} (hw : u.params = s.params)
    (hh : u.history = s.history) (hd : diagnostics evs = 0) (ho : output evs = [])
    (hc : c = .invalidSymbol ∧ s.phase = .decoding ∨ (c = .truncatedInput ∨ c = .readFault) ∧ s.phase = .reading ∨
      c = .writeFault ∧ s.phase = .writing) : EntersFailed s (u.failedWith c evs text) := by
  refine ⟨c, text, evs, rfl, by rw [State.failedWith_exit, hw], fun hwf => ?_, by
    rw [State.failedWith_history, State.failedWith_exit, hh], hd, ho, hc⟩
  rw [State.failedWith_exit, hw]
  exact fun h => failExit_ne_zero (Bool.and_eq_true_iff.1 hwf).2 c (Option.some.inj h)

/-- A response that does not take the byte outputs nothing. -/
theorem output_rejected {b : Byte} {r : WriteResponse} (hr : r = .writeErr ∨ ∃ n, n ≠ 1 ∧ r = .wrote n) :
    output [.write b r] = [] := by
  obtain rfl | ⟨n, hn, rfl⟩ := hr
  · rfl
  · simp [hn]

/-- The events of a termination post no diagnostic. -/
theorem diagnostics_abandoned {s : State} {evs : List Event} (he : evs = [] ∧ (s.phase = .writing → s.obuf = none) ∨
    ∃ b taken, s.phase = .writing ∧ s.obuf = some b ∧ evs = [.write b (.unanswered taken)]) : diagnostics evs = 0 := by
  obtain ⟨rfl, -⟩ | ⟨b, taken, -, -, rfl⟩ := he <;> simp

/-- A transition into `Failed` is R98's, and any other writes no cause and posts no diagnostic. -/
theorem Transition.failure {s t : State} (h : Transition s t) : t.phase = .failed ∧ EntersFailed s t ∨
    t.phase ≠ .failed ∧ t.cause = s.cause ∧ diagnostics t.history = diagnostics s.history := by
  cases h with
  | shortRead bs rest text hp hi h1 h3 ht =>
    exact .inl ⟨rfl, failedWith_enters rfl rfl (by simp) (by simp) (.inr (.inl ⟨.inl rfl, hp⟩))⟩
  | readError rest text hp hi ht =>
    exact .inl ⟨rfl, failedWith_enters rfl rfl (by simp) (by simp) (.inr (.inl ⟨.inr rfl, hp⟩))⟩
  | badSymbol i a sym text hp hn hpos hacc he hc ht =>
    exact .inl ⟨rfl, failedWith_enters rfl rfl rfl rfl (.inl ⟨rfl, hp⟩)⟩
  | badGroup g text hp hn hu hg hd ht => exact .inl ⟨rfl, failedWith_enters rfl rfl rfl rfl (.inl ⟨rfl, hp⟩)⟩
  | rejected b r desc rest text hp hb hi hr ht =>
    exact .inl ⟨rfl, failedWith_enters rfl rfl (by simp) (output_rejected hr) (.inr (.inr ⟨rfl, hp⟩))⟩
  | symbol i a sym v hp hn hpos hacc he hc =>
    split_ifs
    · exact .inr ⟨by simp, rfl, rfl⟩
    · exact .inr ⟨by simp [hp], rfl, rfl⟩
  | fullRead | endOfStream | group | accepted => exact .inr ⟨by simp, rfl, by simp⟩
  | aborted early rest evs n hp hi he => exact .inr ⟨by simp, rfl, by simp [diagnostics_abandoned he]⟩

/-- Settles O33: by what a transition does on the way to `Failed` and elsewhere. -/
theorem failureEntryIsTheSpecs : Obligations.FailureEntryIsTheSpecs := by
  intro s t h
  obtain ⟨hf, henter⟩ | ⟨hf, hkeep⟩ := (step_transition h).failure
  · exact ⟨fun _ => henter, fun hn => absurd hf hn⟩
  · exact ⟨fun hn => absurd hn hf, fun _ => hkeep⟩

/-- Settles O34: each transition but a symbol's changes the phase as its rule says. -/
theorem phaseChangesOnlyByTheTransitions : Obligations.PhaseChangesOnlyByTheTransitions := by
  intro s t h
  cases step_transition h with
  | symbol i a sym v hp hn hpos hacc he hc =>
    split_ifs
    · exact .inr (by simp [hp])
    · exact .inl ⟨hp, hp, by simp [hpos]⟩
  | aborted early rest evs n hp hi he =>
    obtain hp | hp | hp := terminal_eq_false_iff.1 hp <;> exact .inr (by simp [hp])
  | fullRead _ _ hp | shortRead _ _ _ hp | endOfStream _ hp | readError _ _ hp | badSymbol _ _ _ _ hp | group _ _ hp
  | badGroup _ _ hp | accepted _ _ hp | rejected _ _ _ _ _ hp => exact .inr (by simp [hp])

/-- Settles O35: each transition writes only its own registers. -/
theorem registersChangeOnlyWhereTheSpecSays : Obligations.RegistersChangeOnlyWhereTheSpecSays := by
  intro s t h
  cases step_transition h with
  | fullRead g rest hp hi => exact ⟨.inr ⟨hp, rfl, g, rest, hi, rfl⟩, .inl rfl, .inl rfl, .inl rfl⟩
  | symbol i a sym v hp hn hpos hacc he hc =>
    split_ifs
    · exact ⟨.inl rfl, .inr ⟨hp, rfl, by simp⟩, .inl rfl, .inl rfl⟩
    · exact ⟨.inl rfl, .inl rfl, .inl rfl, .inl rfl⟩
  | group g y hp hn hu hg hd => exact ⟨.inl rfl, .inr ⟨hp, rfl, by simp⟩, .inl rfl, .inl rfl⟩
  | accepted => exact ⟨.inl rfl, .inl rfl, .inl rfl, .inl rfl⟩
  | shortRead | readError | badSymbol | badGroup | rejected => exact ⟨.inl rfl, .inl rfl, .inr rfl, .inr rfl⟩
  | endOfStream | aborted => exact ⟨.inl rfl, .inl rfl, .inl rfl, .inr rfl⟩

/-- The history after a failing transition begins with the history before it. -/
theorem prefix_failedWith {s u : State} (c : Cause) (evs : List Event) (text : String)
    (hh : u.history = s.history) : s.history <+: (u.failedWith c evs text).history := by
  rw [State.failedWith_history, hh, List.append_assoc]
  exact List.prefix_append _ _

/-- A failing transition outputs what its own events output. -/
theorem output_failedWith {s u : State} (c : Cause) {evs : List Event} (text : String) (hh : u.history = s.history)
    (ho : output evs = []) : output (u.failedWith c evs text).history = output s.history := by
  simp [hh, ho]

/-- Settles O36: only an accepted write, or a write a termination leaves unanswered, has an event with an output. -/
theorem outputGrowsOnlyByAcceptedWrites : Obligations.OutputGrowsOnlyByAcceptedWrites := by
  intro s t h
  cases step_transition h with
  | fullRead | endOfStream => exact ⟨List.prefix_append _ _, .inl (by simp)⟩
  | shortRead | readError => exact ⟨prefix_failedWith _ _ _ rfl, .inl (output_failedWith _ _ rfl (by simp))⟩
  | badSymbol | badGroup => exact ⟨prefix_failedWith _ _ _ rfl, .inl (output_failedWith _ _ rfl rfl)⟩
  | rejected b r desc rest text hp hb hi hr ht =>
    exact ⟨prefix_failedWith _ _ _ rfl, .inl (output_failedWith _ _ rfl (output_rejected hr))⟩
  | symbol => split_ifs <;> exact ⟨List.prefix_rfl, .inl rfl⟩
  | group => exact ⟨List.prefix_rfl, .inl rfl⟩
  | accepted b rest hp hb hi =>
    exact ⟨List.prefix_append _ _, .inr ⟨b, hp, hb, by simp, .inl ⟨rfl, rest, hi⟩⟩⟩
  | aborted early rest evs n hp hi he =>
    refine ⟨by simp [List.append_assoc], ?_⟩
    obtain ⟨rfl, -⟩ | ⟨b, _ | _, hw, hb, rfl⟩ := he
    · exact .inl (by simp)
    · exact .inl (by simp)
    · exact .inr ⟨b, hw, hb, by simp, .inr rfl⟩

theorem Transition.params_eq {s t : State} (h : Transition s t) : t.params = s.params := by
  cases h with
  | symbol => split_ifs <;> rfl
  | fullRead | shortRead | endOfStream | readError | badSymbol | group | badGroup | accepted | rejected | aborted => rfl

/-- Settles O37: no transition writes the parameters. -/
theorem parametersNeverChange : Obligations.ParametersNeverChange :=
  fun s _ h => reaches_keeps (P := fun t => t.params = s.params)
    (fun _ _ hs hst => (step_transition hst).params_eq.trans hs) h rfl

end Sys2Proof.Machine
end

section
/-! SUPPORT. The order of the channel events (20_memory.md R38, R43; 10_state.md R31), and what it says of the failed
runs and of the diagnostics. -/

namespace Sys2Proof.Machine

/-! What the last events are, phase by phase. -/

theorem lastEvents_reading {s : State} {evs : List Event} (hp : s.phase = .reading) :
    s.LastEvents evs ↔ s.Idle ∧ evs = [] := by
  simp only [State.LastEvents, hp]

theorem lastEvents_decoding {s : State} {evs : List Event} (hp : s.phase = .decoding) :
    s.LastEvents evs ↔ ∃ g, s.grp = .full g ∧ evs = [.read (.data g.bytes)] ∧
      (s.Idle ∨ ∃ i a, s.pos = some i ∧ s.acc = some a ∧
        decodeFrom s.params.alphabet i a (g.bytes.drop i) = decodeGroup s.params.alphabet g) := by
  simp only [State.LastEvents, hp, group_eq_some]

/-- With a decode under way at a position, the accumulator holds what the symbols from there on complete. -/
theorem lastEvents_underway {s : State} {evs : List Event} {i : Fin 4} {a : Byte} (hp : s.phase = .decoding)
    (hpos : s.pos = some i) (hacc : s.acc = some a) (h : s.LastEvents evs) :
    ∃ g, s.grp = .full g ∧ evs = [.read (.data g.bytes)] ∧
      decodeFrom s.params.alphabet i a (g.bytes.drop i) = decodeGroup s.params.alphabet g := by
  obtain ⟨g, hg, he, hidle | ⟨i', a', hpos', hacc', hloop⟩⟩ := (lastEvents_decoding hp).1 h
  · rw [hidle.2] at hpos
    cases hpos
  · cases hpos.symm.trans hpos'
    cases hacc.symm.trans hacc'
    exact ⟨g, hg, he, hloop⟩

theorem lastEvents_writing {s : State} {evs : List Event} (hp : s.phase = .writing) :
    s.LastEvents evs ↔ s.Idle ∧ ∃ g y, decodeGroup s.params.alphabet g = .ok y ∧ s.obuf = some y ∧
      evs = [.read (.data g.bytes)] := by
  simp only [State.LastEvents, hp]

theorem lastEvents_failed {s : State} {evs : List Event} (hp : s.phase = .failed) :
    s.LastEvents evs ↔ ∃ c text before, s.cause = some c ∧ FailingEvents s.params.alphabet c before ∧
      evs = before ++ [.diagnostic c text, .status .failed s.cause s.exit] := by
  simp only [State.LastEvents, hp]

theorem lastEvents_aborted {s : State} {evs : List Event} (hp : s.phase = .aborted) :
    s.LastEvents evs ↔ ∃ before, evs = before ++ [.status .aborted s.cause s.exit] ∧
      (before = [] ∨ ∃ g, before = [.read (.data g.bytes)] ∨
        ∃ y taken, decodeGroup s.params.alphabet g = .ok y ∧
          before = [.read (.data g.bytes), .write y (.unanswered taken)]) := by
  simp only [State.LastEvents, hp]

/-! The step lemma. -/

/-- The failure entry after the events of a failing step, in the place of the events before it. -/
theorem lastEvents_failedWith {s u : State} {c : Cause} {before evs : List Event} {text : String}
    (hw : u.params = s.params) (hf : FailingEvents s.params.alphabet c (before ++ evs)) :
    (u.failedWith c evs text).LastEvents
      (before ++ (evs ++ [.diagnostic c text, .status .failed (some c) (some (u.params.failExit.of c))])) := by
  refine (lastEvents_failed rfl).2 ⟨c, text, before ++ evs, rfl, ?_, (List.append_assoc ..).symm⟩
  rwa [State.failedWith_params, hw]

/-- Every step appends events to the history and, but for an accepted write, keeps the groups that succeeded. -/
theorem historyOk_of_append {s t : State} {done : List (Group × Byte)} {before evs : List Event}
    (hd : ∀ p ∈ done, decodeGroup s.params.alphabet p.1 = .ok p.2) (hh : s.history = groupEvents done ++ before)
    (hw : t.params = s.params) (ht : t.history = s.history ++ evs) (hl : t.LastEvents (before ++ evs)) :
    t.HistoryOk :=
  ⟨done, before ++ evs, by rwa [hw], by rw [ht, hh, List.append_assoc], hl⟩

/-- Every transition keeps the order of the events. -/
theorem Transition.keeps_historyOk {s t : State} (hs : s.HistoryOk) (h : Transition s t) : t.HistoryOk := by
  obtain ⟨done, before, hd, hh, hl⟩ := hs
  have append {t : State} {evs : List Event} := historyOk_of_append (t := t) (evs := evs) hd hh
  cases h with
  | fullRead g rest hp hi =>
    obtain ⟨hidle, rfl⟩ := (lastEvents_reading hp).1 hl
    exact append rfl rfl ((lastEvents_decoding rfl).2 ⟨g, rfl, rfl, .inl hidle⟩)
  | shortRead bs rest text hp hi h1 h3 ht =>
    obtain ⟨-, rfl⟩ := (lastEvents_reading hp).1 hl
    exact append rfl (List.append_assoc ..) (lastEvents_failedWith rfl ⟨bs, h1, h3, rfl⟩)
  | endOfStream rest hp hi =>
    obtain ⟨-, rfl⟩ := (lastEvents_reading hp).1 hl
    exact append rfl rfl rfl
  | readError rest text hp hi ht =>
    obtain ⟨-, rfl⟩ := (lastEvents_reading hp).1 hl
    exact append rfl (List.append_assoc ..) (lastEvents_failedWith rfl rfl)
  | symbol i a sym v hp hn hpos hacc he hc =>
    obtain ⟨g, hg, rfl, hloop⟩ := lastEvents_underway hp hpos hacc hl
    rw [hg] at he
    rw [decodeFrom_entry a he hc] at hloop
    split_ifs with hlast
    · subst hlast
      exact append rfl (List.append_nil _).symm ((lastEvents_writing rfl).2 ⟨⟨rfl, rfl⟩, g, _, hloop.symm, rfl, rfl⟩)
    · rw [← val_succ_of_ne_last hlast] at hloop
      exact append rfl (List.append_nil _).symm
        ((lastEvents_decoding (s := { s with acc := some (accumulate a i v), pos := some (i + 1) }) hp).2
          ⟨g, hg, rfl, .inr ⟨_, _, rfl, rfl, hloop⟩⟩)
  | badSymbol i a sym text hp hn hpos hacc he hc ht =>
    obtain ⟨g, hg, rfl, hloop⟩ := lastEvents_underway hp hpos hacc hl
    rw [hg] at he
    rw [decodeFrom_entry_illegal a he hc] at hloop
    exact append rfl (List.append_assoc ..) (lastEvents_failedWith rfl ⟨g, hloop.symm, rfl⟩)
  | group g y hp hn hu hg hd =>
    obtain ⟨g', hg', rfl, -⟩ := (lastEvents_decoding hp).1 hl
    rw [hg', group_full] at hg
    cases hg
    exact append rfl (List.append_nil _).symm ((lastEvents_writing rfl).2 ⟨⟨rfl, rfl⟩, g, y, hd, rfl, rfl⟩)
  | badGroup g text hp hn hu hg hd ht =>
    obtain ⟨g', hg', rfl, -⟩ := (lastEvents_decoding hp).1 hl
    rw [hg', group_full] at hg
    cases hg
    exact append rfl (List.append_assoc ..) (lastEvents_failedWith rfl ⟨g, hd, rfl⟩)
  | accepted b rest hp hb hi =>
    obtain ⟨hidle, g, y, hy, hby, rfl⟩ := (lastEvents_writing hp).1 hl
    cases hb.symm.trans hby
    refine ⟨done ++ [(g, b)], [], fun p hp => ?_, ?_, (lastEvents_reading rfl).2 ⟨hidle, rfl⟩⟩
    · obtain hp | hp := List.mem_append.1 hp
      · exact hd p hp
      · rw [List.mem_singleton.1 hp]
        exact hy
    · rw [groupEvents_append, List.append_nil, hh, List.append_assoc]
      rfl
  | rejected b r desc rest text hp hb hi hr ht =>
    obtain ⟨-, g, y, hy, hby, rfl⟩ := (lastEvents_writing hp).1 hl
    cases hb.symm.trans hby
    exact append rfl (List.append_assoc ..) (lastEvents_failedWith rfl ⟨g, b, r, hy, hr, rfl⟩)
  | aborted early rest evs n hp hi he =>
    refine append rfl (List.append_assoc ..)
      ((lastEvents_aborted rfl).2 ⟨before ++ evs, (List.append_assoc ..).symm, ?_⟩)
    obtain ⟨rfl, hobuf⟩ | ⟨b, taken, hw, hb, rfl⟩ := he
    · rw [List.append_nil]
      obtain hp | hp | hp := terminal_eq_false_iff.1 hp
      · exact .inl ((lastEvents_reading hp).1 hl).2
      · obtain ⟨g, -, rfl, -⟩ := (lastEvents_decoding hp).1 hl
        exact .inr ⟨g, .inl rfl⟩
      · obtain ⟨-, g, y, -, hby, -⟩ := (lastEvents_writing hp).1 hl
        rw [hobuf hp] at hby
        cases hby
    · obtain ⟨-, g, y, hy, hby, rfl⟩ := (lastEvents_writing hw).1 hl
      cases hb.symm.trans hby
      exact .inr ⟨g, .inr ⟨b, taken, hy, rfl⟩⟩

/-- Settles O43: a step is one of the transitions, and each transition keeps the order. -/
theorem stepKeepsTheHistoryOrder : Obligations.StepKeepsTheHistoryOrder :=
  fun _ _ hs h => (step_transition h).keeps_historyOk hs

theorem historyOk_start (p : Params) (inbox : List HostInput) : (State.start p inbox).HistoryOk :=
  ⟨[], [], by simp, rfl, (lastEvents_reading rfl).2 ⟨⟨rfl, rfl⟩, rfl⟩⟩

theorem reachable_historyOk {s : State} (h : Reachable s) : s.HistoryOk := by
  obtain ⟨p, inbox, -, hr⟩ := h
  exact reaches_keeps stepKeepsTheHistoryOrder hr (historyOk_start p inbox)

/-! What follows. -/

/-- The events of a failing step output nothing and post no diagnostic of their own. -/
theorem failingEvents_totals {al : Alphabet} {c : Cause} {evs : List Event} (h : FailingEvents al c evs) :
    output evs = [] ∧ diagnostics evs = 0 := by
  cases c with
  | invalidSymbol => obtain ⟨g, -, rfl⟩ := h; exact ⟨rfl, rfl⟩
  | truncatedInput => obtain ⟨bs, -, -, rfl⟩ := h; exact ⟨rfl, rfl⟩
  | readFault => obtain rfl := h; exact ⟨rfl, rfl⟩
  | writeFault =>
    obtain ⟨g, y, r, -, hr, rfl⟩ := h
    exact ⟨output_rejected hr, rfl⟩

/-- Settles O46: the groups that succeeded output their bytes, and the failing step outputs nothing. -/
theorem failedRunKeepsOnlyWholeGroups : Obligations.FailedRunKeepsOnlyWholeGroups := by
  intro s h hf
  obtain ⟨done, evs, hd, hh, hl⟩ := reachable_historyOk h
  obtain ⟨c, text, before, hc, hfail, rfl⟩ := (lastEvents_failed hf).1 hl
  obtain ⟨-, hout, -⟩ := groupEvents_totals done
  refine ⟨done, before, c, text, hd, by rw [hh, List.append_assoc], hc, hfail, ?_⟩
  simp [hh, hout, (failingEvents_totals hfail).1]

/-- The last events hold a diagnostic exactly where the run has failed. -/
theorem lastEvents_diagnostics {s : State} {evs : List Event} (h : s.LastEvents evs) :
    diagnostics evs = if s.phase = .failed then 1 else 0 := by
  cases hp : s.phase with
  | reading => obtain ⟨-, rfl⟩ := (lastEvents_reading hp).1 h; rfl
  | decoding => obtain ⟨g, -, rfl, -⟩ := (lastEvents_decoding hp).1 h; rfl
  | writing => obtain ⟨-, g, y, -, -, rfl⟩ := (lastEvents_writing hp).1 h; rfl
  | done =>
    simp only [State.LastEvents, hp] at h
    simp [h]
  | failed =>
    obtain ⟨c, text, before, -, hfail, rfl⟩ := (lastEvents_failed hp).1 h
    simp [(failingEvents_totals hfail).2]
  | aborted =>
    obtain ⟨before, rfl, rfl | ⟨g, rfl | ⟨y, taken, -, rfl⟩⟩⟩ := (lastEvents_aborted hp).1 h <;> simp

/-- Settles O47: the groups that succeeded post no diagnostic, the last events one or none. -/
theorem atMostOneDiagnosticPerRun : Obligations.AtMostOneDiagnosticPerRun := by
  intro s h
  obtain ⟨done, evs, -, hh, hl⟩ := reachable_historyOk h
  obtain ⟨-, -, hdiag⟩ := groupEvents_totals done
  have hcount : diagnostics s.history = if s.phase = .failed then 1 else 0 := by
    rw [hh, diagnostics_append, hdiag, lastEvents_diagnostics hl, Nat.zero_add]
  rw [hcount]
  split_ifs with hf <;> simp [hf]

end Sys2Proof.Machine
end

section
/-! SUPPORT. Whole runs (42_stream_loop.md R91, 70_reset_and_hazards.md R119): the steps of one group, the bound on a
run, and the stream under the reference host. -/

namespace Sys2Proof.Machine

/-! The steps of the loop, each as an equation. -/

/-- `Reading` takes in a full read (R77). -/
theorem step_fullRead {s : State} {g : Group} {rest : List HostInput} (hp : s.phase = .reading)
    (hi : s.inbox = .read 0b0100#4 g.bytes :: rest) : step s = .next { s with
      inbox := rest, grp := .full g, phase := .decoding, history := s.history ++ [.read (.data g.bytes)] } := by
  rw [step_host (.inl hp) hi]
  exact (fullReadFillsTheGroup { s with inbox := rest } g.s0 g.s1 g.s2 g.s3 hp).2

/-- `Decoding` decodes the group in hand (R79, R80). -/
theorem step_group {s : State} {g : Group} (hp : s.phase = .decoding) (hn : s.noEarlyAbort) (hidle : s.Idle)
    (hg : s.grp = .full g) : step s = .next (s.decoded (decodeGroup s.params.alphabet g)) := by
  rw [step_decode_group hp hn hidle.underway (group_eq_some.2 hg), exec, execDecodeGroup, inPhase_here _ hp rfl]

/-- `Writing` takes in the acceptance of its byte (R83). -/
theorem step_accepted {s : State} {b : Byte} {rest : List HostInput} (hp : s.phase = .writing)
    (hb : s.obuf = some b) (hi : s.inbox = .write 0b0001#4 :: rest) : step s = .next { s with
      inbox := rest, phase := .reading, history := s.history ++ [.write b (.wrote 1)] } := by
  rw [step_host (.inr hp) hi]
  exact (acceptedWriteOutputsTheByte { s with inbox := rest } b hp hb).1

/-- `Reading` takes in a fragment (R78). -/
theorem step_shortRead {s : State} {bs : List Byte} {rest : List HostInput} (hp : s.phase = .reading)
    (hi : s.inbox = .read (BitVec.ofNat 4 bs.length) bs :: rest) (h1 : 1 ≤ bs.length) (h3 : bs.length ≤ 3) :
    ∃ text, step s = .next (({ s with inbox := rest } : State).failedWith .truncatedInput [.read (.data bs)] text) := by
  rw [step_host (.inl hp) hi]
  match bs, h1, h3 with
  | [_], _, _ => exact ⟨_, inPhase_readFails (s := { s with inbox := rest }) hp _ _⟩
  | [_, _], _, _ => exact ⟨_, inPhase_readFails (s := { s with inbox := rest }) hp _ _⟩
  | [_, _, _], _, _ => exact ⟨_, inPhase_readFails (s := { s with inbox := rest }) hp _ _⟩

/-- `Reading` takes in the end of the stream (R86). -/
theorem step_endOfStream {s : State} {rest : List HostInput} (hp : s.phase = .reading)
    (hi : s.inbox = .read 0b0000#4 [] :: rest) : step s = .next { s with
      inbox := rest, exit := some 0, phase := .done
      history := s.history ++ [.read (.data []), .status .done s.cause (some 0)] } := by
  rw [step_host (.inl hp) hi]
  exact endOfStreamIsDone { s with inbox := rest } hp

/-- An action that is no early termination, at the head of the script, stands for the whole script. -/
theorem noEarlyAbort_of_head {s : State} {a : HostInput} {rest : List HostInput} (hi : s.inbox = a :: rest)
    (ha : a ≠ .abort true) : s.noEarlyAbort := by
  intro rest' h
  rw [hi] at h
  exact ha (List.cons.inj h).1

/-- Settles O48: a full read, the decode, the accepted write. -/
theorem threeStepsPerGroup : Obligations.ThreeStepsPerGroup := by
  intro s g y rest hp hidle hi hd
  have hread := step_fullRead hp hi
  have hdecode := step_group (s := { s with
    inbox := .write 0b0001#4 :: rest, grp := .full g, phase := .decoding
    history := s.history ++ [.read (.data g.bytes)] }) rfl (noEarlyAbort_of_head rfl nofun) hidle rfl
  rw [show decodeGroup _ g = .ok y from hd, decoded_ok] at hdecode
  obtain ⟨hacc, hpos⟩ := hidle
  refine (runFor_succ hread).2 ((runFor_succ hdecode).2 ((runFor_succ (step_accepted rfl rfl rfl)).2 ?_))
  simp [runFor, hp, hacc, hpos]

/-! The bound on a run. -/

/-- An upper bound of the steps a state can still take: two for each action of the script (the step that takes it in,
and the decode it may lead to), one for a decode that is due, and one more for each symbol but the last of a decode
that is under way. -/
def State.stepsLeft (s : State) : Nat :=
  2 * s.inbox.length + (if s.phase = .decoding then 1 else 0) +
    (match s.underway with
     | some (_, i) => 3 - i.val
     | none => 0)

/-- The symbols of a decode under way, as `stepsLeft` counts them, are at most three. -/
theorem stepsLeft_le (s : State) : s.stepsLeft ≤ 2 * s.inbox.length + 4 := by
  unfold State.stepsLeft
  split_ifs <;> split <;> omega

/-- A transition that takes in an action leaves fewer steps, whatever phase it leads to: it adds no symbol to the decode
under way. -/
theorem stepsLeft_lt_of_takes {s t : State} {a : HostInput} {rest : List HostInput} (hi : s.inbox = a :: rest)
    (ht : t.inbox = rest) (hu : t.underway = s.underway) : t.stepsLeft < s.stepsLeft := by
  unfold State.stepsLeft
  rw [hi, ht, hu, List.length_cons]
  split_ifs <;> omega

/-- A decode that ends leaves fewer steps. -/
theorem stepsLeft_lt_of_decoded {s t : State} (hp : s.phase = .decoding) (ht : t.phase ≠ .decoding)
    (hi : t.inbox = s.inbox) (hu : t.underway = none) : t.stepsLeft < s.stepsLeft := by
  unfold State.stepsLeft
  rw [hi, hu, if_pos hp, if_neg ht]
  dsimp only
  omega

theorem Transition.stepsLeft_lt {s t : State} (h : Transition s t) : t.stepsLeft < s.stepsLeft := by
  cases h with
  | fullRead _ _ _ hi | shortRead _ _ _ _ hi | endOfStream _ _ hi | readError _ _ _ hi | accepted _ _ _ _ hi
  | rejected _ _ _ _ _ _ _ hi | aborted _ _ _ _ _ hi => exact stepsLeft_lt_of_takes hi rfl rfl
  | badSymbol _ _ _ _ hp | group _ _ hp | badGroup _ _ hp => exact stepsLeft_lt_of_decoded hp (by simp) rfl rfl
  | symbol i a sym v hp hn hpos hacc he hc =>
    split_ifs with hlast
    · exact stepsLeft_lt_of_decoded hp (by simp) rfl rfl
    · have hval := val_succ_of_ne_last hlast
      have hlt := (i + 1).isLt
      simp only [State.stepsLeft, State.underway, hpos, hacc]
      omega

/-- A run is no longer than the steps its first state can take. -/
theorem runFor_le_stepsLeft {s t : State} {k : Nat} (h : runFor k s = .next t) : k ≤ s.stepsLeft := by
  induction k generalizing s with
  | zero => exact Nat.zero_le _
  | succ k ih =>
    obtain ⟨u, hu, hr⟩ := runFor_succ_next h
    exact (ih hr).trans_lt (step_transition hu).stepsLeft_lt

/-- Settles O49: the steps left at the start, and the bound on them. -/
theorem runLengthIsBounded : Obligations.RunLengthIsBounded :=
  fun s _ _ h => (runFor_le_stepsLeft h).trans (stepsLeft_le s)

/-! The stream under the reference host. -/

/-- How R91 has a run end in `t` with the input `rest` after the groups that succeeded. -/
def StreamEnd (al : Alphabet) (rest : List Byte) (t : State) : Prop :=
  rest = [] ∧ t.phase = .done ∧ t.exit = some 0 ∨
  (∃ g more, rest = Group.bytes g ++ more ∧ (∃ b ∈ g.bytes, b ∉ al.legal) ∧
    t.phase = .failed ∧ t.cause = some .invalidSymbol) ∨
  1 ≤ rest.length ∧ rest.length ≤ 3 ∧ t.phase = .failed ∧ t.cause = some .truncatedInput

/-- What R91 says of the run from `s` on the input `bs`. -/
def StreamRun (s : State) (bs : List Byte) : Prop :=
  ∃ (done : List (Group × Byte)) (rest : List Byte) (t : State),
    bs = done.flatMap (fun p => p.1.bytes) ++ rest ∧
    (∀ p ∈ done, decodeGroup s.params.alphabet p.1 = .ok p.2) ∧
    Reaches s t ∧ output t.history = output s.history ++ done.map Prod.snd ∧ StreamEnd s.params.alphabet rest t

/-- A run that ends with no group that succeeded. -/
theorem streamRun_ends {s t : State} {bs : List Byte} (hr : Reaches s t) (ho : output t.history = output s.history)
    (he : StreamEnd s.params.alphabet bs t) : StreamRun s bs :=
  ⟨[], bs, t, rfl, by simp, hr, by simp [ho], he⟩

/-- One more group before a run. -/
theorem streamRun_cons {s u : State} {g : Group} {y : Byte} {bs : List Byte}
    (hd : decodeGroup s.params.alphabet g = .ok y) (hr : Reaches s u) (hw : u.params = s.params)
    (ho : output u.history = output s.history ++ [y]) (h : StreamRun u bs) : StreamRun s (g.bytes ++ bs) := by
  obtain ⟨done, rest, t, rfl, hdone, hut, hout, hend⟩ := h
  rw [hw] at hdone hend
  exact ⟨(g, y) :: done, rest, t, by simp, by simpa [hd] using hdone, reaches_trans hr hut, by simp [hout, ho], hend⟩

theorem streamRun_fragment {s : State} {bs : List Byte} (hp : s.phase = .reading)
    (hi : s.inbox = [.read (BitVec.ofNat 4 bs.length) bs]) (h1 : 1 ≤ bs.length) (h3 : bs.length ≤ 3) :
    StreamRun s bs := by
  obtain ⟨text, hstep⟩ := step_shortRead hp hi h1 h3
  exact streamRun_ends (reaches_step hstep) (by simp) (.inr (.inr ⟨h1, h3, rfl, rfl⟩))

/-- A full read of a group with an illegal symbol, then the decode that fails. -/
theorem streamRun_illegal {s : State} {g : Group} {more : List Byte} {rest : List HostInput} (hp : s.phase = .reading)
    (hidle : s.Idle) (hi : s.inbox = .read 0b0100#4 g.bytes :: .write 0b0001#4 :: rest)
    (hbad : ∃ b ∈ g.bytes, b ∉ s.params.alphabet.legal) : StreamRun s (g.bytes ++ more) := by
  have hdecode := step_group (s := { s with
    inbox := .write 0b0001#4 :: rest, grp := .full g, phase := .decoding
    history := s.history ++ [.read (.data g.bytes)] }) rfl (noEarlyAbort_of_head rfl nofun) hidle rfl
  rw [decodeGroup_illegal hbad, decoded_error] at hdecode
  exact streamRun_ends (reaches_trans (reaches_step (step_fullRead hp hi)) (reaches_step hdecode)) (by simp)
    (.inr (.inl ⟨g, more, rfl, hbad, rfl, rfl⟩))

/-- Settles O50, by induction on the input as the reference host cuts it. -/
theorem wholeStreamFunction : Obligations.WholeStreamFunction := by
  intro s bs hp hidle hi
  change StreamRun s bs
  induction bs using refHost.induct generalizing s with
  | case1 b0 b1 b2 b3 rest ih =>
    cases hd : decodeGroup s.params.alphabet ⟨b0, b1, b2, b3⟩ with
    | ok y =>
      have hrun := threeStepsPerGroup s ⟨b0, b1, b2, b3⟩ y (refHost rest) hp hidle hi hd
      exact streamRun_cons hd ⟨3, hrun⟩ rfl (by simp) (ih _ hp hidle rfl)
    | error c =>
      obtain rfl := decodeGroup_error hd
      exact streamRun_illegal (g := ⟨b0, b1, b2, b3⟩) hp hidle hi (decodeGroup_eq_error.1 hd)
  | case2 | case3 | case4 => exact streamRun_fragment hp hi (by simp) (by simp)
  | case5 => exact streamRun_ends (reaches_step (step_endOfStream hp hi)) (by simp) (.inl ⟨rfl, rfl, rfl⟩)

end Sys2Proof.Machine
end

section
/-! SUPPORT. Runs beside a host in time (70_reset_and_hazards.md R115 to R120): the silent host and the endless one. -/

namespace Sys2Proof.Machine

/-- Settles O54: each silent turn leaves the block as it is, so no turn has the action that `HostAnswers` asks for. -/
theorem silentHostIsWaitedForEver : Obligations.SilentHostIsWaitedForEver := by
  intro h s t n hn hp hi hsilent
  have hstay : ∀ m, n ≤ m → runWith h m s = .next t :=
    Nat.le_induction hn fun m hm ih =>
      runWith_succ.2 ⟨t, ih, by rw [hsilent m hm]; exact hostTurn_silent hp hi⟩
  refine ⟨hstay, fun hreq hans => ?_⟩
  obtain ⟨q, hq⟩ := Option.ne_none_iff_exists'.1 hreq
  obtain ⟨m, u, a, rest, hnm, hu, -, hinbox, -⟩ := hans n t q hn hq
  rw [hstay m hnm] at hu
  cases hu
  rw [hsilent m hnm, State.receive_nil, hi] at hinbox
  cases hinbox

/-- A turn whose actions allow a step takes it. -/
theorem runWith_step {h : HostPlan} {n : Nat} {s t u : State} (hn : runWith h n s = .next t)
    (hstep : step (t.receive (h n)) = .next u) : runWith h (n + 1) s = .next u :=
  runWith_succ.2 ⟨t, hn, hostTurn_next.2 (.inl hstep)⟩

/-! The host that sends full reads without end. -/

theorem endlessHost_reads (gs : Nat → Group) (k : Nat) :
    endlessHost gs (3 * k) = [.read 0b0100#4 (gs k).bytes] := by
  simp [endlessHost]

theorem endlessHost_pauses (gs : Nat → Group) (k : Nat) : endlessHost gs (3 * k + 1) = [] := by
  simp [endlessHost]

theorem endlessHost_accepts (gs : Nat → Group) (k : Nat) : endlessHost gs (3 * k + 2) = [.write 0b0001#4] := by
  simp [endlessHost]

theorem noEarlyAbort_of_empty {s : State} (hi : s.inbox = []) : s.noEarlyAbort := by
  intro rest h
  rw [hi] at h
  cases h

/-- No decode is under way symbol by symbol, and every action of the host has been taken in. -/
def State.AtRest (s : State) : Prop := s.Idle ∧ s.inbox = []

/-- The state in which a full read of `g` leaves a block at rest. -/
def State.holding (s : State) (g : Group) : State :=
  { s with grp := .full g, phase := .decoding, history := s.history ++ [.read (.data g.bytes)] }

/-- The state in which the decode of `g` to `y` leaves it. -/
def State.offering (s : State) (g : Group) (y : Byte) : State :=
  { s.holding g with obuf := some y, phase := .writing }

/-- The state in which the accepted write of `y` leaves it. -/
def State.afterGroup (s : State) (g : Group) (y : Byte) : State :=
  { s.offering g y with phase := .reading, history := s.history ++ [.read (.data g.bytes), .write y (.wrote 1)] }

/-- The three turns of a group beside the endless host. -/
theorem endless_turns {gs : Nat → Group} {s t : State} {k : Nat} {y : Byte}
    (hn : runWith (endlessHost gs) (3 * k) s = .next t) (hp : t.phase = .reading) (hrest : t.AtRest)
    (hd : decodeGroup t.params.alphabet (gs k) = .ok y) :
    runWith (endlessHost gs) (3 * k + 1) s = .next (t.holding (gs k)) ∧
    runWith (endlessHost gs) (3 * k + 2) s = .next (t.offering (gs k) y) ∧
    runWith (endlessHost gs) (3 * (k + 1)) s = .next (t.afterGroup (gs k) y) := by
  obtain ⟨hidle, hi⟩ := hrest
  have hread : runWith (endlessHost gs) (3 * k + 1) s = .next (t.holding (gs k)) := by
    refine runWith_step hn ?_
    rw [endlessHost_reads, step_fullRead (s := t.receive _) hp (by rw [State.receive_inbox, hi]; rfl)]
    simp [State.holding, hi]
  have hdecode : runWith (endlessHost gs) (3 * k + 2) s = .next (t.offering (gs k) y) := by
    refine runWith_step hread ?_
    rw [endlessHost_pauses, State.receive_nil, step_group (s := t.holding (gs k)) rfl (noEarlyAbort_of_empty hi) hidle rfl,
      show decodeGroup (t.holding (gs k)).params.alphabet (gs k) = .ok y from hd, decoded_ok]
    obtain ⟨hacc, hpos⟩ := hidle
    simp [State.offering, State.holding, hacc, hpos]
  have haccept : runWith (endlessHost gs) (3 * k + 2 + 1) s = .next (t.afterGroup (gs k) y) := by
    refine runWith_step hdecode ?_
    rw [endlessHost_accepts, step_accepted (s := (t.offering (gs k) y).receive _) rfl rfl
      (by rw [State.receive_inbox]; exact congrArg (· ++ _) hi)]
    simp [State.afterGroup, State.offering, State.holding, hi]
  exact ⟨hread, hdecode, haccept⟩

/-- What holds after the first `k` groups of the endless host, in a run from `s`. -/
structure EndlessAt (s : State) (gs : Nat → Group) (ys : Nat → Byte) (k : Nat) (t : State) : Prop where
  run     : runWith (endlessHost gs) (3 * k) s = .next t
  reading : t.phase = .reading
  rest    : t.AtRest
  params  : t.params = s.params
  history : t.history = s.history ++ groupEvents ((List.range k).map fun i => (gs i, ys i))

section
variable {s : State} {gs : Nat → Group} {ys : Nat → Byte}

theorem EndlessAt.next {k : Nat} {t : State} (hd : ∀ k, decodeGroup s.params.alphabet (gs k) = .ok (ys k))
    (h : EndlessAt s gs ys k t) : EndlessAt s gs ys (k + 1) (t.afterGroup (gs k) (ys k)) := by
  obtain ⟨-, -, hrun⟩ := endless_turns h.run h.reading h.rest (h.params ▸ hd k)
  refine ⟨hrun, rfl, h.rest, h.params, ?_⟩
  rw [List.range_succ, List.map_append, groupEvents_append, ← List.append_assoc, ← h.history]
  rfl

theorem endlessAt (hp : s.phase = .reading) (hrest : s.AtRest)
    (hd : ∀ k, decodeGroup s.params.alphabet (gs k) = .ok (ys k)) (k : Nat) : ∃ t, EndlessAt s gs ys k t := by
  induction k with
  | zero => exact ⟨s, rfl, hp, hrest, rfl, (List.append_nil _).symm⟩
  | succ k ih =>
    obtain ⟨t, ht⟩ := ih
    exact ⟨_, ht.next hd⟩

/-- Each turn of the endless run is one of the three turns of a group: the block holds nothing, a group or a byte, and
the action of the turn answers the request it has, if any. -/
theorem endless_turn (hp : s.phase = .reading) (hrest : s.AtRest)
    (hd : ∀ k, decodeGroup s.params.alphabet (gs k) = .ok (ys k)) (n : Nat) :
    ∃ t, runWith (endlessHost gs) n s = .next t ∧ t.phase.terminal = false ∧
      (t.request = none ∨ ∃ q a, t.request = some q ∧ (t.receive (endlessHost gs n)).inbox = [a] ∧
        q.answeredBy a = true) := by
  obtain ⟨k, hk⟩ : ∃ k, n = 3 * k ∨ n = 3 * k + 1 ∨ n = 3 * k + 2 := ⟨n / 3, by omega⟩
  obtain ⟨t, ht⟩ := endlessAt hp hrest hd k
  obtain ⟨hread, hdecode, -⟩ := endless_turns ht.run ht.reading ht.rest (ht.params ▸ hd k)
  have hi : t.inbox = [] := ht.rest.2
  obtain rfl | rfl | rfl := hk
  · refine ⟨t, ht.run, by rw [ht.reading]; rfl,
      .inr ⟨_, .read 0b0100#4 (gs k).bytes, request_reading ht.reading, ?_, rfl⟩⟩
    rw [State.receive_inbox, hi, endlessHost_reads]
    rfl
  · exact ⟨_, hread, rfl, .inl rfl⟩
  · refine ⟨_, hdecode, rfl, .inr ⟨_, .write 0b0001#4, request_writing rfl rfl, ?_, rfl⟩⟩
    rw [State.receive_inbox, endlessHost_accepts]
    exact congrArg (· ++ _) hi

end

/-- Settles O53: each turn is one of the three of a group, and each group's three lead to the next. -/
theorem endlessFullReadsRunForEver : Obligations.EndlessFullReadsRunForEver := by
  intro s gs ys hp hidle hi hd
  refine ⟨fun n t q hn hq => ?_, fun n => ?_, fun k => ?_⟩
  · obtain ⟨u, hu, -, hreq⟩ := endless_turn hp ⟨hidle, hi⟩ hd n
    cases hn.symm.trans hu
    obtain hnone | ⟨q', a, hq', hinbox, hans⟩ := hreq
    · rw [hnone] at hq
      cases hq
    · cases hq.symm.trans hq'
      exact ⟨n, t, a, [], le_rfl, hn, hq, hinbox, .inl hans⟩
  · obtain ⟨t, ht, hterm, -⟩ := endless_turn hp ⟨hidle, hi⟩ hd n
    exact ⟨t, ht, hterm⟩
  · obtain ⟨t, ht⟩ := endlessAt hp ⟨hidle, hi⟩ hd k
    obtain ⟨-, hout, -⟩ := groupEvents_totals ((List.range k).map fun i => (gs i, ys i))
    exact ⟨t, ht.run, ht.reading, ht.history, by simp [ht.history, hout]⟩

end Sys2Proof.Machine
end

section
/-! SUPPORT. The end of an answered run on finite input (70_reset_and_hazards.md R119, R120): each step makes progress,
and the input bounds it. -/

namespace Sys2Proof.Machine

/-! The invariant along a run of turns. -/

theorem inv_receive {s : State} (hs : s.Inv) (acts : List HostInput) : (s.receive acts).Inv :=
  ⟨hs.params_wf, hs.idle, hs.decoding_has_group, hs.writing_has_byte, hs.failed_iff_cause, hs.exit_none_iff,
    hs.settled, hs.in_hand⟩

theorem hostTurn_keeps_inv {acts : List HostInput} {s t : State} (hs : s.Inv) (h : hostTurn acts s = .next t) :
    t.Inv := by
  obtain hstep | ⟨rfl, -⟩ := hostTurn_next.1 h
  · exact (step_transition hstep).keeps_inv (inv_receive hs acts)
  · exact hs

theorem runWith_inv {h : HostPlan} {n : Nat} {s t : State} (hn : runWith h n s = .next t) (hs : s.Inv) : t.Inv :=
  runWith_keeps (fun _ _ _ => hostTurn_keeps_inv) hn hs

/-! Where the block has a step. -/

/-- A read response of the contract is an operation of `Reading`. -/
theorem phaseOf_decodeRead {desc : Descriptor} {data : List Byte} {i : Instr} (h : decodeRead desc data = .ok i) :
    phaseOf i = some .reading := by
  obtain ⟨_, _, _, _, -, -, rfl⟩ | ⟨_, -, -, rfl⟩ | ⟨_, _, -, -, rfl⟩ | ⟨_, _, _, -, -, rfl⟩ | ⟨-, -, rfl⟩ |
    ⟨-, -, rfl⟩ := decodeRead_ok h <;> rfl

/-- A write response of the contract is an operation of `Writing`. -/
theorem phaseOf_decodeWrite {desc : Descriptor} {i : Instr} (h : decodeWrite desc = .ok i) :
    phaseOf i = some .writing := by
  obtain ⟨-, rfl⟩ | ⟨-, rfl⟩ | ⟨_, -, -, rfl⟩ | ⟨-, rfl⟩ := decodeWrite_ok h <;> rfl

theorem exec_reading {i : Instr} {s : State} (hi : phaseOf i = some .reading) (hp : s.phase = .reading) :
    ∃ t, exec i s = .next t := by
  cases i with
  | rdFull | rdShort1 | rdShort2 | rdShort3 | rdEof | rdErr => exact ⟨_, inPhase_here _ hp rfl⟩
  | symV0 | symV1 | symV2 | symV3 | symInvalid | decodeGroup | wrOk | wrZero | wrOver | wrErr | abort => cases hi

theorem exec_writing {i : Instr} {s : State} {b : Byte} (hi : phaseOf i = some .writing) (hp : s.phase = .writing)
    (hb : s.obuf = some b) : ∃ t, exec i s = .next t := by
  cases i with
  | wrOk | wrZero | wrOver | wrErr =>
    exact ⟨_, (inPhase_here _ hp rfl).trans (writeAnswered_next.2 ⟨b, hb, rfl⟩)⟩
  | symV0 | symV1 | symV2 | symV3 | symInvalid | decodeGroup | rdFull | rdShort1 | rdShort2 | rdShort3 | rdEof | rdErr
  | abort => cases hi

theorem exec_abort {s : State} (ht : s.phase.terminal = false) : ∃ t, exec .abort s = .next t := by
  obtain ⟨_, _, h, -⟩ := terminationAborts s ht
  exact ⟨_, h⟩

/-- What a pending request says of the state. -/
theorem request_eq_some {s : State} {q : Request} (h : s.request = some q) :
    s.phase = .reading ∧ q = .inRead 4 ∨ ∃ b, s.phase = .writing ∧ s.obuf = some b ∧ q = .outWrite b := by
  unfold State.request at h
  cases hp : s.phase <;> simp [hp] at h
  · exact .inl ⟨rfl, h.symm⟩
  · obtain ⟨b, hb, rfl⟩ := h
    exact .inr ⟨b, rfl, hb, rfl⟩

theorem exists_of_isOk {ε α : Type} {x : Except ε α} (h : x.isOk = true) : ∃ a, x = .ok a := by
  cases x with
  | ok a => exact ⟨a, rfl⟩
  | error e => cases h

/-- A response of the contract, or a termination, is taken in by the request it answers. -/
theorem step_of_answered {s : State} {q : Request} {a : HostInput} {rest : List HostInput} (hq : s.request = some q)
    (hi : s.inbox = a :: rest) (ha : q.answeredBy a = true ∨ ∃ early, a = .abort early) : ∃ t, step s = .next t := by
  obtain ha | ⟨early, rfl⟩ := ha
  · obtain ⟨hp, rfl⟩ | ⟨b, hp, hb, rfl⟩ := request_eq_some hq
    · cases a with
      | read desc data =>
        obtain ⟨i, hd⟩ := exists_of_isOk (x := decodeRead desc data) ha
        rw [step_host (.inl hp) hi, HostInput.code, runWord_ok (c := .rdrsp desc data) hd]
        exact exec_reading (phaseOf_decodeRead hd) hp
      | write | abort => cases ha
    · cases a with
      | write desc =>
        obtain ⟨i, hd⟩ := exists_of_isOk (x := decodeWrite desc) ha
        rw [step_host (.inr hp) hi, HostInput.code, runWord_ok (c := .wrrsp desc) hd]
        exact exec_writing (phaseOf_decodeWrite hd) hp hb
      | read | abort => cases ha
  · have hp : s.phase = .reading ∨ s.phase = .writing := by
      obtain ⟨hp, -⟩ | ⟨_, hp, -, -⟩ := request_eq_some hq
      · exact .inl hp
      · exact .inr hp
    rw [step_host hp hi, HostInput.code, runWord_ok (i := .abort) rfl]
    exact exec_abort (terminal_eq_false_iff.2 (hp.imp_right .inr))

/-- `Decoding` always has its internal step, or the termination before it. -/
theorem step_of_decoding {s : State} (hs : s.Inv) (hp : s.phase = .decoding) : ∃ t, step s = .next t := by
  obtain ⟨rest, hi⟩ | hn := early_or_not s
  · rw [step_word (fetch_early hp hi), runWord_ok (i := .abort) rfl]
    exact exec_abort (terminal_eq_false_iff.2 (.inr (.inl hp)))
  · obtain ⟨g, hg⟩ := Option.ne_none_iff_exists'.1 (hs.decoding_has_group hp)
    exact ⟨_, step_group hp hn hs.idle (group_eq_some.1 hg)⟩

/-! Progress. -/

/-- The place of a phase between two full reads. -/
def Phase.rank : Phase → Nat
  | .decoding => 0
  | .writing  => 1
  | .reading  => 2
  | .done | .failed | .aborted => 3

theorem Phase.rank_le (p : Phase) : p.rank ≤ 3 := by cases p <;> decide

/-- How far a run has come: the input it has consumed, and where it stands between two full reads. -/
def State.progress (s : State) : Nat := inConsumed s.history + s.phase.rank

theorem rank_lt_terminal {p : Phase} (h : p.terminal = false) : p.rank < 3 := by
  obtain rfl | rfl | rfl := terminal_eq_false_iff.1 h <;> decide

/-- A transition that moves the phase up makes progress. -/
theorem progress_lt_of_rank {s t : State} {evs : List Event} (hh : t.history = s.history ++ evs)
    (hr : s.phase.rank < t.phase.rank) : s.progress < t.progress := by
  rw [State.progress, State.progress, hh, inConsumed_append]
  omega

/-- Every transition of an idle block makes progress: a full read by its four bytes, every other one by its phase. -/
theorem Transition.progress_lt {s t : State} (hs : s.Idle) (h : Transition s t) : s.progress < t.progress := by
  cases h with
  | fullRead g rest hp hi =>
    simp only [State.progress, hp, inConsumed_append, Phase.rank]
    simp
  | symbol i a sym v hp hn hpos hacc he hc =>
    rw [hs.2] at hpos
    cases hpos
  | shortRead _ _ _ hp | readError _ _ hp | badSymbol _ _ _ _ hp | badGroup _ _ hp | rejected _ _ _ _ _ hp =>
    exact progress_lt_of_rank (List.append_assoc ..) (by simp [hp, Phase.rank])
  | endOfStream _ hp | accepted _ _ hp => exact progress_lt_of_rank rfl (by simp [hp, Phase.rank])
  | group _ _ hp => exact progress_lt_of_rank (List.append_nil _).symm (by simp [hp, Phase.rank])
  | aborted early rest evs n hp hi he => exact progress_lt_of_rank (List.append_assoc ..) (rank_lt_terminal hp)

theorem hostTurn_progress {acts : List HostInput} {s t : State} (hs : s.Inv) (h : hostTurn acts s = .next t) :
    s.progress ≤ t.progress := by
  obtain hstep | ⟨rfl, -⟩ := hostTurn_next.1 h
  · exact ((step_transition hstep).progress_lt (s := s.receive acts) hs.idle).le
  · exact le_rfl

/-- A run of turns never loses progress. -/
theorem runWith_progress {h : HostPlan} {n m : Nat} {s t u : State} (hs : s.Inv) (hn : runWith h n s = .next t)
    (hnm : n ≤ m) (hm : runWith h m s = .next u) : t.progress ≤ u.progress := by
  induction m, hnm using Nat.le_induction generalizing u with
  | base =>
    cases hn.symm.trans hm
    exact le_rfl
  | succ m _ ih =>
    obtain ⟨v, hv, hturn⟩ := runWith_succ.1 hm
    exact (ih hv).trans (hostTurn_progress (runWith_inv hv hs) hturn)

/-- Beside a host that answers every request, a run that is not over goes on. -/
theorem answered_run_advances {h : HostPlan} {s t : State} {n : Nat} (hs : s.Inv) (hans : HostAnswers h s)
    (hn : runWith h n s = .next t) (ht : t.phase.terminal = false) :
    ∃ m u, runWith h m s = .next u ∧ t.progress < u.progress := by
  have advance {m : Nat} {u v : State} (hm : runWith h m s = .next u) (hstep : step (u.receive (h m)) = .next v) :
      runWith h (m + 1) s = .next v ∧ u.progress < v.progress :=
    ⟨runWith_step hm hstep, (step_transition hstep).progress_lt (s := u.receive (h m)) (runWith_inv hm hs).idle⟩
  by_cases hp : t.phase = .decoding
  · obtain ⟨u, hu⟩ := step_of_decoding (inv_receive (runWith_inv hn hs) (h n)) hp
    exact ⟨_, u, advance hn hu⟩
  · obtain ⟨q, hq⟩ : ∃ q, t.request = some q := by
      obtain hp' | hp' | hp' := terminal_eq_false_iff.1 ht
      · exact ⟨_, request_reading hp'⟩
      · exact absurd hp' hp
      · obtain ⟨b, hb⟩ := Option.ne_none_iff_exists'.1 ((runWith_inv hn hs).writing_has_byte hp')
        exact ⟨_, request_writing hp' hb⟩
    obtain ⟨m, u, a, rest, hnm, hm, hqu, hinbox, ha⟩ := hans n t q hn hq
    obtain ⟨v, hv⟩ := step_of_answered (s := u.receive (h m)) hqu hinbox ha
    obtain ⟨hrun, hlt⟩ := advance hm hv
    exact ⟨_, v, hrun, (runWith_progress hs hn hnm hm).trans_lt hlt⟩

/-! The input bounds the progress. -/

@[simp] theorem carried_nil : carried [] = 0 := rfl

@[simp] theorem carried_cons (a : HostInput) (acts : List HostInput) : carried (a :: acts) = a.carried + carried acts := by
  simp [carried]

@[simp] theorem carried_append (l k : List HostInput) : carried (l ++ k) = carried l + carried k := by
  simp [carried]

@[simp] theorem carried_read (desc : Descriptor) (data : List Byte) :
    (HostInput.read desc data).carried = data.length := rfl
@[simp] theorem carried_write (desc : Descriptor) : (HostInput.write desc).carried = 0 := rfl
@[simp] theorem carried_abort (early : Bool) : (HostInput.abort early).carried = 0 := rfl

/-- A transition consumes what the action it takes in carries. -/
theorem Transition.carried_eq {s t : State} (h : Transition s t) :
    inConsumed t.history + carried t.inbox = inConsumed s.history + carried s.inbox := by
  cases h with
  | fullRead _ _ _ hi | shortRead _ _ _ _ hi => simp [hi, Nat.add_assoc]
  | endOfStream _ _ hi | readError _ _ _ hi | accepted _ _ _ _ hi | rejected _ _ _ _ _ _ _ hi => simp [hi]
  | symbol => split_ifs <;> rfl
  | badSymbol | badGroup => simp
  | group => rfl
  | aborted early rest evs n hp hi he =>
    obtain ⟨rfl, -⟩ | ⟨b, taken, -, -, rfl⟩ := he <;> simp [hi]

/-- A run beside a host consumes no more than the script held at its start and what the host has sent since. -/
theorem runWith_carried {h : HostPlan} {n : Nat} {s t : State} (hn : runWith h n s = .next t) :
    inConsumed t.history + carried t.inbox ≤
      inConsumed s.history + carried s.inbox + carried ((List.range n).flatMap h) := by
  induction n generalizing t with
  | zero => cases hn; exact le_rfl
  | succ n ih =>
    obtain ⟨u, hu, hturn⟩ := runWith_succ.1 hn
    have hrun := ih hu
    rw [List.range_succ, List.flatMap_append, carried_append, List.flatMap_singleton]
    obtain hstep | ⟨rfl, -⟩ := hostTurn_next.1 hturn
    · have heq := (step_transition hstep).carried_eq
      rw [State.receive_history, State.receive_inbox, carried_append] at heq
      omega
    · omega

/-- On finite input the progress of a run is bounded. -/
theorem progress_bounded {h : HostPlan} (hfin : FiniteInput h) (s : State) :
    ∃ B, ∀ n t, runWith h n s = .next t → t.progress ≤ B := by
  obtain ⟨N, hN⟩ := hfin
  refine ⟨inConsumed s.history + carried s.inbox + N + 3, fun n t hn => ?_⟩
  have hcarried := runWith_carried hn
  have hsent := hN n
  have hrank := t.phase.rank_le
  rw [State.progress]
  omega

/-- Settles O52: were no turn in a terminal phase, the run would make progress without bound. -/
theorem answeredRunOnFiniteInputEnds : Obligations.AnsweredRunOnFiniteInputEnds := by
  intro h s hs hans hfin
  obtain ⟨n, t, hn, ht⟩ : ∃ n t, runWith h n s = .next t ∧ t.phase.terminal = true := by
    by_contra hnone
    push Not at hnone
    obtain ⟨B, hB⟩ := progress_bounded hfin s
    have hfar (p : Nat) : ∃ n t, runWith h n s = .next t ∧ p ≤ t.progress := by
      induction p with
      | zero => exact ⟨0, s, rfl, Nat.zero_le _⟩
      | succ p ih =>
        obtain ⟨n, t, hn, hp⟩ := ih
        obtain ⟨m, u, hm, hlt⟩ := answered_run_advances hs hans hn (Bool.eq_false_iff.2 (hnone n t hn))
        exact ⟨m, u, hm, by omega⟩
    obtain ⟨n, t, hn, hp⟩ := hfar (B + 1)
    have hle := hB n t hn
    omega
  exact ⟨n, t, hn, ht, fun m hnm => runWith_terminal hn ht hnm⟩

end Sys2Proof.Machine
end

section
/-! SUPPORT. A run beside a host in time as a run on a script (70_reset_and_hazards.md R115, R116). The script holds the
actions the block has taken in, in order. A termination that came while a write waited has to be marked as coming after
the decode, or the script would bring it before: the host of the run in time had not acted yet when the group was
decoded. -/

namespace Sys2Proof.Machine

/-! No operation reads the script. -/

/-- `s` before another script. -/
def State.withInbox (s : State) (l : List HostInput) : State := { s with inbox := l }

@[simp] theorem State.withInbox_phase (s : State) (l : List HostInput) : (s.withInbox l).phase = s.phase := rfl
@[simp] theorem State.withInbox_obuf (s : State) (l : List HostInput) : (s.withInbox l).obuf = s.obuf := rfl
@[simp] theorem State.withInbox_params (s : State) (l : List HostInput) : (s.withInbox l).params = s.params := rfl
@[simp] theorem State.withInbox_underway (s : State) (l : List HostInput) : (s.withInbox l).underway = s.underway := rfl

/-- A result with its next state, if any, before another script. -/
def resultWithInbox (l : List HostInput) : Result → Result
  | .next s => .next (s.withInbox l)
  | .fault f => .fault f
  | .refused r => .refused r

theorem resultWithInbox_eq_next {l : List HostInput} {r : Result} {u : State} :
    resultWithInbox l r = .next u ↔ ∃ v, r = .next v ∧ u = v.withInbox l := by
  cases r <;> simp [resultWithInbox, eq_comm]

theorem inPhase_withInbox (s : State) (p : Phase) (r : Result) (l : List HostInput) :
    (s.withInbox l).inPhase p (resultWithInbox l r) = resultWithInbox l (s.inPhase p r) := by
  unfold State.inPhase
  rw [State.withInbox_phase]
  split_ifs <;> rfl

theorem decoded_withInbox (s : State) (r : Except Cause Byte) (l : List HostInput) :
    (s.withInbox l).decoded r = (s.decoded r).withInbox l := by
  cases r <;> rfl

theorem decodeSymbol_withInbox (s : State) (v : UInt2) (l : List HostInput) :
    (s.withInbox l).decodeSymbol v = (s.decodeSymbol v).withInbox l := by
  have hcontribute (a : Byte) (i : Fin 4) : (s.withInbox l).contribute v a i = (s.contribute v a i).withInbox l := by
    rw [contribute_eq, contribute_eq]
    split_ifs <;> rfl
  unfold State.decodeSymbol
  rw [State.withInbox_underway]
  cases s.underway with
  | some ai => exact hcontribute _ _
  | none => exact hcontribute _ _

theorem writeAnswered_withInbox (s : State) (r : WriteResponse) (l : List HostInput) {k : State → State}
    (hk : ∀ u : State, k (u.withInbox l) = (k u).withInbox l) :
    (s.withInbox l).writeAnswered r k = resultWithInbox l (s.writeAnswered r k) := by
  unfold State.writeAnswered
  rw [State.withInbox_obuf]
  cases s.obuf with
  | some b => exact congrArg Host.Outcome.next (hk (s.log (.write b r)))
  | none => rfl

theorem abandonWrite_withInbox (s : State) (l : List HostInput) :
    (s.withInbox l).abandonWrite = s.abandonWrite.withInbox l := by
  unfold State.abandonWrite
  rw [State.withInbox_phase, State.withInbox_obuf]
  split <;> rfl

theorem exec_withInbox (i : Instr) (s : State) (l : List HostInput) :
    exec i (s.withInbox l) = resultWithInbox l (exec i s) := by
  have onPhase {p : Phase} {t t' : State} (h : t' = t.withInbox l) :
      (s.withInbox l).inPhase p (.next t') = resultWithInbox l (s.inPhase p (.next t)) :=
    h ▸ inPhase_withInbox s p (.next t) l
  have onWrite {r : WriteResponse} {k : State → State} (hk : ∀ u : State, k (u.withInbox l) = (k u).withInbox l) :
      (s.withInbox l).inPhase .writing ((s.withInbox l).writeAnswered r k) =
        resultWithInbox l (s.inPhase .writing (s.writeAnswered r k)) :=
    writeAnswered_withInbox s r l hk ▸ inPhase_withInbox s .writing (s.writeAnswered r k) l
  cases i with
  | symV0 | symV1 | symV2 | symV3 => exact onPhase (decodeSymbol_withInbox s _ l)
  | symInvalid | decodeGroup => exact onPhase (decoded_withInbox s _ l)
  | rdFull | rdShort1 | rdShort2 | rdShort3 | rdEof | rdErr => exact onPhase rfl
  | wrOk | wrZero | wrOver | wrErr => exact onWrite fun _ => rfl
  | abort =>
    rw [exec, exec, execAbort, execAbort, abandonWrite_withInbox, State.withInbox_phase]
    split_ifs <;> rfl

theorem runWord_withInbox (c : Code) (s : State) (l : List HostInput) :
    runWord c (s.withInbox l) = resultWithInbox l (runWord c s) := by
  unfold runWord
  rw [State.withInbox_params]
  split
  · exact exec_withInbox _ s l
  · rfl

/-! A step before another script. -/

/-- Whether the block takes in the action `a` if it is the next one: a response or a termination it waits for, or the
termination before the decode. -/
def State.TakesIn (s : State) (a : HostInput) : Prop :=
  (s.phase = .reading ∨ s.phase = .writing) ∨ s.phase = .decoding ∧ a = .abort true

/-- The step that takes in an action is the action's own, whatever comes behind it. -/
theorem step_takesIn {s : State} {a : HostInput} (h : s.TakesIn a) (l : List HostInput) :
    step (s.withInbox (a :: l)) = resultWithInbox l (runWord a.code s) := by
  rw [← runWord_withInbox]
  obtain hp | ⟨hp, rfl⟩ := h
  · exact step_host (s := s.withInbox (a :: l)) hp rfl
  · exact step_word (fetch_early (s := s.withInbox (.abort true :: l)) hp rfl)

/-- An action as it stands in a script for a block that is not in `Decoding` when it takes it in: a termination is
marked as coming after the decode. -/
def HostInput.late : HostInput → HostInput
  | .abort _ => .abort false
  | .read desc data => .read desc data
  | .write desc => .write desc

@[simp] theorem late_code (a : HostInput) : a.late.code = a.code := by cases a <;> rfl

theorem late_ne (a : HostInput) : a.late ≠ .abort true := by cases a <;> simp [HostInput.late]

/-- What a step of an idle block does beside the host: it takes in the first of its actions, or it decodes. -/
theorem step_idle_cases {s u : State} (hidle : s.Idle) (h : step s = .next u) :
    (∃ a rest v, s.inbox = a :: rest ∧ s.TakesIn a ∧ runWord a.code s = .next v ∧ u = v.withInbox rest) ∨
    s.phase = .decoding ∧ ∃ g, s.grp = .full g ∧ u = s.decoded (decodeGroup s.params.alphabet g) := by
  have takes {a : HostInput} {rest : List HostInput} (hi : s.inbox = a :: rest) (hta : s.TakesIn a) :
      ∃ a rest v, s.inbox = a :: rest ∧ s.TakesIn a ∧ runWord a.code s = .next v ∧ u = v.withInbox rest := by
    rw [show s = s.withInbox (a :: rest) by rw [← hi]; rfl, step_takesIn hta, resultWithInbox_eq_next] at h
    obtain ⟨v, hv, hu⟩ := h
    exact ⟨a, rest, v, hi, hta, hv, hu⟩
  cases hp : s.phase with
  | reading | writing =>
    have hwaits : s.phase = .reading ∨ s.phase = .writing := by simp [hp]
    cases hi : s.inbox with
    | nil =>
      rw [step_eq_waiting.2 ⟨hwaits, hi⟩] at h
      cases h
    | cons a rest => exact .inl (hi ▸ takes hi (.inl hwaits))
  | decoding =>
    obtain ⟨rest, hi⟩ | hn := early_or_not s
    · exact .inl (takes hi (.inr ⟨hp, rfl⟩))
    · exact .inr ⟨rfl, step_decoding_next hp hidle hn h⟩
  | done | failed | aborted =>
    rw [step_stuck (fetch_terminal (by rw [hp]; rfl))] at h
    cases h

/-! The script of a run in time. -/

/-- Some actions lead a block with parameters `p` from the start of its run to `s`, whatever comes behind them. Only a
state that a decode has led to asks that no termination before a decode comes next. -/
def HasScript (p : Params) (s : State) : Prop :=
  ∃ pre, ∀ more, (s.phase = .decoding ∨ ∀ rest, more ≠ .abort true :: rest) →
    Reaches (.start p (pre ++ more)) (s.withInbox more)

theorem hasScript_start (p : Params) (inbox : List HostInput) : HasScript p (.start p inbox) :=
  ⟨[], fun _ _ => reaches_refl _⟩

theorem hasScript_withInbox {p : Params} {s : State} {l : List HostInput} : HasScript p (s.withInbox l) ↔ HasScript p s :=
  Iff.rfl

/-- A step that takes in an action puts it at the end of the script. -/
theorem HasScript.takesIn {p : Params} {s v : State} {a : HostInput} (hs : HasScript p s) (ha : s.TakesIn a)
    (hv : runWord a.code s = .next v) (hlate : s.phase = .decoding ∨ a ≠ .abort true) : HasScript p v := by
  obtain ⟨pre, hpre⟩ := hs
  refine ⟨pre ++ [a], fun more _ => ?_⟩
  rw [List.append_assoc]
  refine reaches_trans (hpre (a :: more) (hlate.imp_right fun h rest hc => h (List.cons.inj hc).1)) (reaches_step ?_)
  rw [step_takesIn ha, hv]
  rfl

/-- The decode needs no action. -/
theorem HasScript.decodes {p : Params} {s : State} {g : Group} (hs : HasScript p s) (hp : s.phase = .decoding)
    (hidle : s.Idle) (hg : s.grp = .full g) : HasScript p (s.decoded (decodeGroup s.params.alphabet g)) := by
  obtain ⟨pre, hpre⟩ := hs
  refine ⟨pre, fun more hmore => reaches_trans (hpre more (.inl hp)) (reaches_step ?_)⟩
  have hnot : (s.decoded (decodeGroup s.params.alphabet g)).phase ≠ .decoding := by
    cases decodeGroup s.params.alphabet g <;> simp [decoded_ok, decoded_error]
  rw [step_group (s := s.withInbox more) hp (hmore.resolve_left hnot) hidle hg, decoded_withInbox]
  rfl

/-- A step that the actions of a turn allow keeps the run on a script. -/
theorem HasScript.of_step {p : Params} {s u : State} {acts : List HostInput} (hs : HasScript p s) (hidle : s.Idle)
    (h : step (s.receive acts) = .next u) : HasScript p u := by
  have hr : HasScript p (s.receive acts) := hasScript_withInbox.2 hs
  obtain ⟨a, rest, v, -, hta, hv, rfl⟩ | ⟨hp, g, hg, rfl⟩ := step_idle_cases (s := s.receive acts) hidle h
  · refine hasScript_withInbox.2 ?_
    obtain hp | ⟨hp, rfl⟩ := hta
    · exact hr.takesIn (a := a.late) (.inl hp) (by rwa [late_code]) (.inr (late_ne a))
    · exact hr.takesIn (.inr ⟨hp, rfl⟩) hv (.inl hp)
  · exact hr.decodes hp hidle hg

/-- Settles O55: the run in time has a script at each of its turns, and that script with nothing behind it leads to the
state without the actions still to come. -/
theorem runsInTimeAreReachable : Obligations.RunsInTimeAreReachable := by
  intro p h n t hp hn
  have hturn (m : Nat) (s u : State) : s.Inv ∧ HasScript p s → hostTurn (h m) s = .next u → u.Inv ∧ HasScript p u := by
    rintro ⟨hinv, hs⟩ hu
    refine ⟨hostTurn_keeps_inv hinv hu, ?_⟩
    obtain hstep | ⟨rfl, -⟩ := hostTurn_next.1 hu
    · exact hs.of_step hinv.idle hstep
    · exact hs
  obtain ⟨-, pre, hpre⟩ := runWith_keeps hturn hn ⟨inv_start [] hp, hasScript_start p []⟩
  exact ⟨p, pre ++ [], hp, hpre [] (.inr nofun)⟩

end Sys2Proof.Machine
end
